-- ==== Sys2Proof/Word.lean ====
section
/-! DEFINITION. The word types of the block and of its access instructions. -/

namespace Sys2Proof

/-- A register value, `<Rd>` and an instruction word: 32 bits (00_scope.md R7, R8; 30_encoding.md R67). -/
abbrev Word := BitVec 32

/-- A byte of instruction memory (20_memory.md R50: only the layout of instruction words needs it). -/
abbrev Byte := BitVec 8

/-- The condition field, bits [31:28] (30_encoding.md R60, R65). -/
abbrev Cond := BitVec 4

/-- The Rd field, bits [15:12]: the number `d` of a general register (30_encoding.md R60, R64). -/
abbrev Reg := BitVec 4

end Sys2Proof
end

