-- ==== Sys2Proof/Config.lean ====
section
/-! DEFINITION. The parameters of 00_scope.md R7, the records they are made of, and the free values:
opaque constants with no body, of which nothing can be proved but what holds of every value. -/

namespace Sys2Proof

/-- An enable mask (10_state.md R21): one Boolean a counter, named after the register fields.
`c` is CCNT, `p2` PMC2, `p1` PMC1, `p0` PMC0. All 16 values are legal (R28). -/
structure EnableMask where
  c  : Bool
  p2 : Bool
  p1 : Bool
  p0 : Bool
  deriving DecidableEq, Repr, Inhabited

/-- The input OVF (10_state.md R44): for each counter, whether it overflows now. -/
structure Overflow where
  c  : Bool
  p2 : Bool
  p1 : Bool
  p0 : Bool
  deriving DecidableEq, Repr, Inhabited

/-- The cache sizes Table 4.51 lists (10_state.md R38). -/
inductive CacheSize where
  | kB4
  | kB8
  | kB16
  | kB32
  | kB64
  deriving DecidableEq, Repr, Inhabited

/-- `SBZP_POLICY` (00_scope.md R7, 92_eei_decisions.md D4): which writes of bits [30:3] are admitted. -/
inductive SbzpPolicy where
  | zeroOrPreserved
  | zeroOnly
  deriving DecidableEq, Repr, Inhabited

/-- The order of an instruction word's four bytes in memory, "the enclosing processor model's
parameter" (92_eei_decisions.md D15, 20_memory.md R50). -/
inductive ByteOrder where
  | little
  | big
  deriving DecidableEq, Repr, Inhabited

/-- `VAL_ROUTING` (00_scope.md R7, 92_eei_decisions.md D12 to D14): whether the platform passes each signal to the
party 60_exceptions.md R118 names for it, and whether it wires each back to the processor's own input. -/
structure Routing where
  irqToInterruptController : Bool
  fiqToInterruptController : Bool
  resetToResetController   : Bool
  debugToExternalDebugger  : Bool
  irqToProcessor           : Bool
  fiqToProcessor           : Bool
  resetToProcessor         : Bool
  debugToProcessor         : Bool
  deriving DecidableEq, Repr, Inhabited

/-- "default: nowhere, they are observable outputs only" (R7). -/
def Routing.nowhere : Routing := ⟨false, false, false, false, false, false, false, false⟩

/-- The parameters of 00_scope.md R7 that a step consults. They are a field of `State`, so a statement
about every state is a statement about every value of them. -/
structure Params where
  /-- `CSO_ALLOWED_D`: the data cache sizes whose RAM has been integrated (D23). -/
  csoAllowedD : List CacheSize
  /-- `CSO_ALLOWED_I`: the instruction cache sizes whose RAM has been integrated (D23). -/
  csoAllowedI : List CacheSize
  sbzpPolicy  : SbzpPolicy
  byteOrder   : ByteOrder
  routing     : Routing
  deriving DecidableEq, Repr, Inhabited

/-- `CSO_ALLOWED_D` of the machine `State.reset` starts: OPEN (00_scope.md R7, D23). Free value, safe (log 10). -/
opaque Config.csoAllowedD : List CacheSize

/-- `CSO_ALLOWED_I` of the machine `State.reset` starts: OPEN (R7, D23). Free value, safe (log 10). -/
opaque Config.csoAllowedI : List CacheSize

/-- The parameters `State.reset` carries (log 10): the OPEN sets are free, `SBZP_POLICY` is D4's decision, the routing
R7's default; the byte order is a DESIGN CHOICE, unsafe if a statement used it, and none does. -/
def Params.standard : Params where
  csoAllowedD := Config.csoAllowedD
  csoAllowedI := Config.csoAllowedI
  sbzpPolicy  := .zeroOrPreserved
  byteOrder   := .little
  routing     := .nowhere

/-- `draw(28)` (00_scope.md R9): the bits [30:3] of the `n`-th draw, unpredictable (10_state.md R27,
D3). Free value, safe (log 7). -/
opaque Config.freeReserved : Nat → BitVec 28

/-- `RESET_IRQEN`, OPEN, "a draw made at reset, not assumed equal between two resets"
(70_reset_and_hazards.md R135). Free value of the reset that is draw `n`, safe (log 8). -/
opaque Config.resetIrqen : Nat → EnableMask

/-- `RESET_FIQEN`, as `Config.resetIrqen` (R135, log 8). -/
opaque Config.resetFiqen : Nat → EnableMask

/-- `RESET_RSTEN`, as `Config.resetIrqen` (R135, log 8). -/
opaque Config.resetRsten : Nat → EnableMask

/-- `RESET_DBGEN`, as `Config.resetIrqen` (R135, log 8). -/
opaque Config.resetDbgen : Nat → EnableMask

/-- The input OVF right after the reset that is draw `n`: OPEN (00_scope.md R7). Free value, safe (log 9). -/
opaque Config.resetOvf : Nat → Overflow

/-- The input USEREN_EN right after a reset: OPEN, and "Do not assume its reset value"
(91_not_in_source.md N8). Free value, safe (log 9). -/
opaque Config.resetUserEn : Nat → Bool

/-- PRIV after a reset that nVALRESET caused: "the mode ... after reset" is in no source (70_reset_and_hazards.md
R136). Free value, safe (log 15). -/
opaque Config.resetPriv : Nat → Bool

/-- The conditions that hold after a reset that nVALRESET caused (R136). Free value, safe (log 15). -/
opaque Config.resetConds : Nat → List Cond

/-- r0 to r14 after a reset that nVALRESET caused (R136). Free value, safe (log 15). -/
opaque Config.resetX : Nat → Vector Word 15

/-- The pc after a reset that nVALRESET caused: "the reset vector" is in no source (R136). Free value, safe
(log 15). -/
opaque Config.resetPc : Nat → Word

end Sys2Proof
end

