-- ==== Sys2Proof/Syntax.lean ====
section
/-! DEFINITION. The instructions: one constructor a row of spec/opcode_table.json, and the registers they name. -/

namespace Sys2Proof

/-- The four request kinds (00_scope.md R7): interrupt, fast interrupt, reset, debug request. -/
inductive Kind where
  | irq
  | fiq
  | rst
  | dbg
  deriving DecidableEq, Repr, Inhabited

/-- The two access points of one enable mask (10_state.md R21). -/
inductive Port where
  | set
  | clr
  deriving DecidableEq, Repr, Inhabited

/-- The eight enable registers, by 00_scope.md R11's short names. -/
inductive EnReg where
  | irqEnset
  | fiqEnset
  | rstEnset
  | dbgEnset
  | irqEnclr
  | fiqEnclr
  | rstEnclr
  | dbgEnclr
  deriving DecidableEq, Repr, Inhabited

/-- The access instructions (30_encoding.md R62, R63). Each carries its condition field and its Rd
field; bits 27 to 16 and 11 to 0 are fixed by the row. -/
inductive Instr where
  /-- `MRC p15, 0, <Rd>, c15, c1, 0`: read of `VAL_IRQ_ENSET` (40_enable_set_clear.md R78). -/
  | mrcIrqEnset (cond : Cond) (rd : Reg)
  /-- `MCR p15, 0, <Rd>, c15, c1, 0`: write of `VAL_IRQ_ENSET` (40_enable_set_clear.md R79). -/
  | mcrIrqEnset (cond : Cond) (rd : Reg)
  /-- `MRC p15, 0, <Rd>, c15, c1, 1`: read of `VAL_FIQ_ENSET` (40_enable_set_clear.md R80). -/
  | mrcFiqEnset (cond : Cond) (rd : Reg)
  /-- `MCR p15, 0, <Rd>, c15, c1, 1`: write of `VAL_FIQ_ENSET` (40_enable_set_clear.md R81). -/
  | mcrFiqEnset (cond : Cond) (rd : Reg)
  /-- `MRC p15, 0, <Rd>, c15, c1, 2`: read of `VAL_RST_ENSET` (40_enable_set_clear.md R82). -/
  | mrcRstEnset (cond : Cond) (rd : Reg)
  /-- `MCR p15, 0, <Rd>, c15, c1, 2`: write of `VAL_RST_ENSET` (40_enable_set_clear.md R83). -/
  | mcrRstEnset (cond : Cond) (rd : Reg)
  /-- `MRC p15, 0, <Rd>, c15, c1, 3`: read of `VAL_DBG_ENSET` (40_enable_set_clear.md R84). -/
  | mrcDbgEnset (cond : Cond) (rd : Reg)
  /-- `MCR p15, 0, <Rd>, c15, c1, 3`: write of `VAL_DBG_ENSET` (40_enable_set_clear.md R85). -/
  | mcrDbgEnset (cond : Cond) (rd : Reg)
  /-- `MRC p15, 0, <Rd>, c15, c1, 4`: read of `VAL_IRQ_ENCLR` (40_enable_set_clear.md R86). -/
  | mrcIrqEnclr (cond : Cond) (rd : Reg)
  /-- `MCR p15, 0, <Rd>, c15, c1, 4`: write of `VAL_IRQ_ENCLR` (40_enable_set_clear.md R87). -/
  | mcrIrqEnclr (cond : Cond) (rd : Reg)
  /-- `MRC p15, 0, <Rd>, c15, c1, 5`: read of `VAL_FIQ_ENCLR` (40_enable_set_clear.md R88). -/
  | mrcFiqEnclr (cond : Cond) (rd : Reg)
  /-- `MCR p15, 0, <Rd>, c15, c1, 5`: write of `VAL_FIQ_ENCLR` (40_enable_set_clear.md R89). -/
  | mcrFiqEnclr (cond : Cond) (rd : Reg)
  /-- `MRC p15, 0, <Rd>, c15, c1, 6`: read of `VAL_RST_ENCLR` (40_enable_set_clear.md R90). -/
  | mrcRstEnclr (cond : Cond) (rd : Reg)
  /-- `MCR p15, 0, <Rd>, c15, c1, 6`: write of `VAL_RST_ENCLR` (40_enable_set_clear.md R91). -/
  | mcrRstEnclr (cond : Cond) (rd : Reg)
  /-- `MRC p15, 0, <Rd>, c15, c1, 7`: read of `VAL_DBG_ENCLR` (40_enable_set_clear.md R92). -/
  | mrcDbgEnclr (cond : Cond) (rd : Reg)
  /-- `MCR p15, 0, <Rd>, c15, c1, 7`: write of `VAL_DBG_ENCLR` (40_enable_set_clear.md R93). -/
  | mcrDbgEnclr (cond : Cond) (rd : Reg)
  /-- `MCR p15, 0, <Rd>, c15, c14, 0`: write of `VAL_CSOR` (41_cache_size_override.md R101). -/
  | mcrCsor (cond : Cond) (rd : Reg)
  /-- `MRC p15, 0, <Rd>, c15, c14, 0`: read of `VAL_CSOR` (41_cache_size_override.md R104). -/
  | mrcCsor (cond : Cond) (rd : Reg)
  deriving DecidableEq, Repr, Inhabited

/-- The condition field of an instruction. -/
def Instr.cond : Instr → Cond
  | .mrcIrqEnset c _ => c
  | .mcrIrqEnset c _ => c
  | .mrcFiqEnset c _ => c
  | .mcrFiqEnset c _ => c
  | .mrcRstEnset c _ => c
  | .mcrRstEnset c _ => c
  | .mrcDbgEnset c _ => c
  | .mcrDbgEnset c _ => c
  | .mrcIrqEnclr c _ => c
  | .mcrIrqEnclr c _ => c
  | .mrcFiqEnclr c _ => c
  | .mcrFiqEnclr c _ => c
  | .mrcRstEnclr c _ => c
  | .mcrRstEnclr c _ => c
  | .mrcDbgEnclr c _ => c
  | .mcrDbgEnclr c _ => c
  | .mcrCsor c _ => c
  | .mrcCsor c _ => c

/-- The Rd field of an instruction. -/
def Instr.rd : Instr → Reg
  | .mrcIrqEnset _ d => d
  | .mcrIrqEnset _ d => d
  | .mrcFiqEnset _ d => d
  | .mcrFiqEnset _ d => d
  | .mrcRstEnset _ d => d
  | .mcrRstEnset _ d => d
  | .mrcDbgEnset _ d => d
  | .mcrDbgEnset _ d => d
  | .mrcIrqEnclr _ d => d
  | .mcrIrqEnclr _ d => d
  | .mrcFiqEnclr _ d => d
  | .mcrFiqEnclr _ d => d
  | .mrcRstEnclr _ d => d
  | .mcrRstEnclr _ d => d
  | .mrcDbgEnclr _ d => d
  | .mcrDbgEnclr _ d => d
  | .mcrCsor _ d => d
  | .mrcCsor _ d => d

end Sys2Proof
end

