-- ==== Sys2Proof/WellFormed.lean ====
section
/-! DEFINITION. Which instruction terms the encoding admits. -/

namespace Sys2Proof

/-- "any condition except b1111" (30_encoding.md R60, R65): b1111 encodes another instruction class. Every
value of the Rd field is an encoding; `d` = 15 is refused when it runs (R64), not here (95_test_vectors.md V9). -/
def Instr.wellFormed (i : Instr) : Bool := i.cond != 0xF#4

end Sys2Proof
end

