-- ==== Sys2Proof/Decode.lean ====
section
/-! DEFINITION. From instruction words and bytes to instructions (30_encoding.md R70), and back (R63). -/

namespace Sys2Proof

/-- Why the decoder gives no instruction. -/
inductive Reject where
  /-- `not_mine` (30_encoding.md R69, R70): not one of the block's eighteen encodings. -/
  | notMine
  /-- Fewer bytes than one instruction word (R67: every encoding is 32 bits long). -/
  | truncated
  deriving DecidableEq, Repr

/-- The enable register whose number is `opc2` (00_scope.md R11, 30_encoding.md R70 step 2): 0 to 3 the Set
registers for IRQ, FIQ, reset, debug; 4 to 7 the Clear registers in the same order. -/
def EnReg.ofOpc2 (n : BitVec 3) : EnReg :=
  match n.getLsbD 2, n.getLsbD 1, n.getLsbD 0 with
  | false, false, false => .irqEnset
  | false, false, true  => .fiqEnset
  | false, true,  false => .rstEnset
  | false, true,  true  => .dbgEnset
  | true,  false, false => .irqEnclr
  | true,  false, true  => .fiqEnclr
  | true,  true,  false => .rstEnclr
  | true,  true,  true  => .dbgEnclr

/-- The `MRC` (read) of an enable register. -/
def Instr.readOf (r : EnReg) (c : Cond) (d : Reg) : Instr :=
  match r with
  | .irqEnset => .mrcIrqEnset c d
  | .fiqEnset => .mrcFiqEnset c d
  | .rstEnset => .mrcRstEnset c d
  | .dbgEnset => .mrcDbgEnset c d
  | .irqEnclr => .mrcIrqEnclr c d
  | .fiqEnclr => .mrcFiqEnclr c d
  | .rstEnclr => .mrcRstEnclr c d
  | .dbgEnclr => .mrcDbgEnclr c d

/-- The `MCR` (write) of an enable register. -/
def Instr.writeOf (r : EnReg) (c : Cond) (d : Reg) : Instr :=
  match r with
  | .irqEnset => .mcrIrqEnset c d
  | .fiqEnset => .mcrFiqEnset c d
  | .rstEnset => .mcrRstEnset c d
  | .dbgEnset => .mcrDbgEnset c d
  | .irqEnclr => .mcrIrqEnclr c d
  | .fiqEnclr => .mcrFiqEnclr c d
  | .rstEnclr => .mcrRstEnclr c d
  | .dbgEnclr => .mcrDbgEnclr c d

/-- 30_encoding.md R70 steps (1) and (2), on one 32-bit word. -/
def decodeWord (w : Word) : Except Reject Instr :=
  let c    : Cond     := w.extractLsb' 28 4
  let l    : Bool     := w.getLsbD 20
  let d    : Reg      := w.extractLsb' 12 4
  let opc2 : BitVec 3 := w.extractLsb' 5 3
  let crm  : BitVec 4 := w.extractLsb' 0 4
  if c = 0xF#4 ∨ w &&& 0x0FEF0F10#32 ≠ 0x0E0F0F10#32 then .error .notMine
  else if crm = 1#4 then
    .ok (if l then .readOf (.ofOpc2 opc2) c d else .writeOf (.ofOpc2 opc2) c d)
  else if crm = 14#4 ∧ opc2 = 0#3 then
    .ok (if l then .mrcCsor c d else .mcrCsor c d)
  else .error .notMine

/-- The word four bytes hold, the first at the lowest address. -/
def wordOfBytes (o : ByteOrder) (b0 b1 b2 b3 : Byte) : Word :=
  match o with
  | .little => b3 ++ b2 ++ b1 ++ b0
  | .big    => b0 ++ b1 ++ b2 ++ b3

/-- The four bytes of a word, the first for the lowest address. -/
def bytesOfWord (o : ByteOrder) (w : Word) : List Byte :=
  match o with
  | .little => [w.extractLsb' 0 8, w.extractLsb' 8 8, w.extractLsb' 16 8, w.extractLsb' 24 8]
  | .big    => [w.extractLsb' 24 8, w.extractLsb' 16 8, w.extractLsb' 8 8, w.extractLsb' 0 8]

/-- The instruction at the head of a list of bytes, and the bytes after it. -/
def decodeBytes (o : ByteOrder) : List Byte → Except Reject (Instr × List Byte)
  | b0 :: b1 :: b2 :: b3 :: rest =>
    match decodeWord (wordOfBytes o b0 b1 b2 b3) with
    | .ok i    => .ok (i, rest)
    | .error r => .error r
  | _ => .error .truncated

/-- The match value of an instruction's row in the table of 30_encoding.md R63. -/
def Instr.rowMatch : Instr → Word
  | .mrcIrqEnset _ _ => 0x0E1F0F11#32
  | .mcrIrqEnset _ _ => 0x0E0F0F11#32
  | .mrcFiqEnset _ _ => 0x0E1F0F31#32
  | .mcrFiqEnset _ _ => 0x0E0F0F31#32
  | .mrcRstEnset _ _ => 0x0E1F0F51#32
  | .mcrRstEnset _ _ => 0x0E0F0F51#32
  | .mrcDbgEnset _ _ => 0x0E1F0F71#32
  | .mcrDbgEnset _ _ => 0x0E0F0F71#32
  | .mrcIrqEnclr _ _ => 0x0E1F0F91#32
  | .mcrIrqEnclr _ _ => 0x0E0F0F91#32
  | .mrcFiqEnclr _ _ => 0x0E1F0FB1#32
  | .mcrFiqEnclr _ _ => 0x0E0F0FB1#32
  | .mrcRstEnclr _ _ => 0x0E1F0FD1#32
  | .mcrRstEnclr _ _ => 0x0E0F0FD1#32
  | .mrcDbgEnclr _ _ => 0x0E1F0FF1#32
  | .mcrDbgEnclr _ _ => 0x0E0F0FF1#32
  | .mcrCsor _ _ => 0x0E0F0F1E#32
  | .mrcCsor _ _ => 0x0E1F0F1E#32

/-- The word of an instruction (30_encoding.md R63): its row's match value, the condition in [31:28] and
`d << 12`. -/
def encode (i : Instr) : Word :=
  i.cond.setWidth 32 <<< 28 ||| i.rowMatch ||| i.rd.setWidth 32 <<< 12

/-- The bytes of an instruction in memory. -/
def encodeBytes (o : ByteOrder) (i : Instr) : List Byte := bytesOfWord o (encode i)

/-- The word whose low `nbits` bits are those of `w` and whose other bits are 0. -/
def tableWord (nbits w : Nat) : Word := BitVec.ofNat 32 (w % 2 ^ nbits)

/-- What the decoder reads from the instruction whose bits are `w`, numbered as spec/opcode_table.json
numbers them. The word is laid out and read back in one byte order; which one makes no difference. -/
def decodeTableWord (nbits w : Nat) : Option Instr :=
  match decodeBytes .little (bytesOfWord .little (tableWord nbits w)) with
  | .ok (i, _) => some i
  | .error _   => none

end Sys2Proof
end

