-- ==== Sys2Proof/Machine/State.lean ====
section
/-! DEFINITION. The state of the block (10_state.md R20), of what the enclosing processor supplies to it,
the ends of a step (00_scope.md R10), and the state after reset (R43, R135). -/

namespace Sys2Proof.Machine

/-- Memory: address and byte pairs, addresses strictly rising. An unlisted address reads as no value, so no
entry can equal it. -/
abbrev Memory := List Host.Cell

/-- A cache size override in effect (10_state.md R39): the data cache size D and the instruction cache size I. -/
structure Override where
  d : CacheSize
  i : CacheSize
  deriving DecidableEq, Repr

/-- What the enclosing processor owns and an access reads or writes. -/
structure Cpu where
  /-- r0 to r14, the `x[d]` of 00_scope.md R9 and 10_state.md R40 (r15 is the program counter, refused). -/
  x   : Vector Word 15
  /-- The program counter (10_state.md R41). -/
  pc  : Word
  /-- Where instruction words lie (20_memory.md R50). -/
  mem : Memory
  deriving DecidableEq, Repr

/-- The inputs of the block, sampled at each access. -/
structure Inputs where
  /-- PRIV (10_state.md R45): the processor is in Privileged mode. -/
  priv      : Bool
  /-- USEREN_EN (R45): the User Enable Register permits access from outside Privileged mode. -/
  userEn    : Bool
  /-- OVF (R44): which counters overflow. -/
  ovf       : Overflow
  /-- Which condition codes hold on the processor's flags, as the enclosing processor evaluates them
  (30_encoding.md R65, D20). -/
  condsHeld : List Cond
  deriving DecidableEq, Repr

/-- What the outside world does between one instruction and the next (log 3). -/
inductive EnvEvent where
  /-- Nothing. -/
  | idle
  /-- The inputs change: OVF, PRIV, USEREN_EN are functions of time (10_state.md R44, R45). -/
  | inputs (i : Inputs)
  /-- The processor runs instructions of its own: its state and the inputs become any others. -/
  | processor (c : Cpu) (i : Inputs)
  /-- The processor is reset (70_reset_and_hazards.md R136): the block returns to the state of R135, and the
  processor's own state after reset, which no source gives, is the event's. -/
  | reset (c : Cpu) (i : Inputs)
  deriving DecidableEq, Repr

/-- Why a step ends in a fault. -/
inductive Fault where
  /-- `raise Undefined()` (60_exceptions.md R122): a denied access; raised by the sixteen enable register
  accesses (40_enable_set_clear.md R73) and the write of `VAL_CSOR` (41_cache_size_override.md R100). It
  carries no information (R123), and what the processor does on it is in no source (R125). Safe. -/
  | undefined
  deriving DecidableEq, Repr

/-- Why a step is refused: the spec gives the access no meaning (00_scope.md R9). All safe. -/
inductive Refusal where
  /-- An instruction the model has no meaning for; no arm answers it. -/
  | notModelled (mnemonic : String)
  /-- `refuse(read_of_write_only)` (41_cache_size_override.md R104): the read of `VAL_CSOR`. -/
  | readOfWriteOnly
  /-- `refuse(rd_is_r15)` (30_encoding.md R64): any of the other seventeen accesses with `d` = 15. -/
  | rdIsR15
  /-- `refuse(sbzp_violated)` (40_enable_set_clear.md R77): bits [30:3] written to an enable register. -/
  | sbzpViolated
  /-- `refuse(sbz_violated)` (41_cache_size_override.md R102): bits [31:8] written to `VAL_CSOR`. -/
  | sbzViolated
  /-- `refuse(unlisted_cache_size)` (R103 a): a code Table 4.51 does not list. -/
  | unlistedCacheSize
  /-- `refuse(cache_size_not_integrated)` (R103 b): a listed size whose RAM is not integrated. -/
  | cacheSizeNotIntegrated
  /-- The decoder's answer `not_mine` (30_encoding.md R69): raised by the step; the enclosing model decides
  what the word is. -/
  | notMine
  /-- No four bytes lie at the pc: raised by the step, no instruction word has been supplied (log 4). -/
  | noInstruction
  deriving DecidableEq, Repr

/-- The machine. The first five fields are the whole state of the block (10_state.md R20). -/
structure State where
  /-- IRQEN (10_state.md R22). -/
  irqen  : EnableMask
  /-- FIQEN (R23). -/
  fiqen  : EnableMask
  /-- RSTEN (R24). -/
  rsten  : EnableMask
  /-- DBGEN (R25). -/
  dbgen  : EnableMask
  /-- CSO (R39): `none` is `valid` = false. -/
  cso    : Option Override
  /-- LASTRD (R47 b): by enable register number, the bits [30:3] its most recent read returned. -/
  lastRd : Vector (Option (BitVec 28)) 8
  cpu    : Cpu
  inputs : Inputs
  /-- The parameters of 00_scope.md R7; no step changes them. -/
  params : Params
  /-- The number of draws made, which the free values are applied to (log 7). -/
  draws  : Nat
  /-- The events to come, one landing after each instruction; an empty list lets nothing change (log 3). -/
  env    : List EnvEvent
  deriving DecidableEq, Repr

/-- What the processor holds right after reset. The spec gives none of it (10_state.md R43): the pc is PRESUMED (the
family's reset vector), the general registers are a DESIGN CHOICE; unsafe (log 9). -/
def Cpu.reset : Cpu where
  x   := Vector.replicate 15 0#32
  pc  := 0#32
  mem := []

/-- The inputs right after reset. PRIV is PRESUMED true (the family resets into a privileged mode), unsafe; the
condition codes are those that hold on flags of which only Z is set, a DESIGN CHOICE, unsafe; USEREN_EN and OVF
are free (log 9). -/
def Inputs.reset : Inputs where
  priv      := true
  userEn    := Config.resetUserEn 0
  ovf       := Config.resetOvf 0
  condsHeld := [0#4, 3#4, 5#4, 7#4, 9#4, 10#4, 13#4]

/-- The state right after reset (10_state.md R43, 70_reset_and_hazards.md R135): the masks are the OPEN
parameters, no override is in effect, LASTRD is absent everywhere. THE MODEL'S CHOICE (log 3, DESIGN CHOICE, unsafe for
a run from this state): no outside event is to come, so on such a run OVF, PRIV, USEREN_EN and the flags never change,
where R44 and R45 leave open how they change in time. A statement about every state holds under every list of
events. The first draw was the reset's own (log 7). -/
def State.reset : State where
  irqen  := Config.resetIrqen 0
  fiqen  := Config.resetFiqen 0
  rsten  := Config.resetRsten 0
  dbgen  := Config.resetDbgen 0
  cso    := none
  lastRd := Vector.replicate 8 none
  cpu    := Cpu.reset
  inputs := Inputs.reset
  params := Params.standard
  draws  := 1
  env    := []

end Sys2Proof.Machine
end

