-- ==== Sys2Proof/Machine/Operands.lean ====
section
/-! DEFINITION. The operand `<Rd>`, the fields of a register value, and the program counter's advance. -/

namespace Sys2Proof.Machine

/-- The answer of a meaning and of a step. -/
abbrev Answer := Host.Outcome State Fault Refusal

/-- The general register a Rd field selects; `none` for r15 (30_encoding.md R64). -/
def general? (d : Reg) : Option (Fin 15) :=
  if h : d.toNat < 15 then some ⟨d.toNat, h⟩ else none

/-- `x[d]` (00_scope.md R9). -/
def State.getX (s : State) (r : Fin 15) : Word := s.cpu.x[r]

/-- `x[d] <- v` (00_scope.md R9). -/
def State.setX (s : State) (r : Fin 15) (v : Word) : State :=
  { s with cpu := { s.cpu with x := s.cpu.x.set r v } }

/-- The enclosing processor advances the pc past the access by 4 (10_state.md R41, D21). -/
def State.advance (s : State) : State :=
  { s with cpu := { s.cpu with pc := s.cpu.pc + 4#32 } }

/-- The function bits [31], [2], [1], [0] of an enable register value, as a mask (10_state.md R26). -/
def functionBits (v : Word) : EnableMask :=
  ⟨v.getLsbD 31, v.getLsbD 2, v.getLsbD 1, v.getLsbD 0⟩

/-- The reserved bits [30:3] of an enable register value (10_state.md R26, R27). -/
def reservedBits (v : Word) : BitVec 28 := v.extractLsb' 3 28

/-- The value a read returns (40_enable_set_clear.md R74): `E.C :: u :: E.P2 :: E.P1 :: E.P0`. -/
def readValue (e : EnableMask) (u : BitVec 28) : Word :=
  BitVec.ofBool e.c ++ u ++ BitVec.ofBool e.p2 ++ BitVec.ofBool e.p1 ++ BitVec.ofBool e.p0

/-- `pk(E)` (40_enable_set_clear.md, constants). -/
def pk (e : EnableMask) : Word := readValue e 0#28

/-- Bits [31:8] of a `VAL_CSOR` value (10_state.md R37): SBZ. -/
def csoReserved (v : Word) : BitVec 24 := v.extractLsb' 8 24

/-- The Dcache field, bits [7:4] (R37). -/
def csoDcache (v : Word) : BitVec 4 := v.extractLsb' 4 4

/-- The Icache field, bits [3:0] (R37). -/
def csoIcache (v : Word) : BitVec 4 := v.extractLsb' 0 4

/-- The code of a cache size in Table 4.51 (10_state.md R38). -/
def cacheCode : CacheSize → BitVec 4
  | .kB4  => 0b0000#4
  | .kB8  => 0b0001#4
  | .kB16 => 0b0011#4
  | .kB32 => 0b0111#4
  | .kB64 => 0b1111#4

/-- The cache size a code selects (R38); `none` for the eleven codes not listed (R103 a). -/
def cacheSize? (n : BitVec 4) : Option CacheSize :=
  if n = 0b0000#4 then some .kB4
  else if n = 0b0001#4 then some .kB8
  else if n = 0b0011#4 then some .kB16
  else if n = 0b0111#4 then some .kB32
  else if n = 0b1111#4 then some .kB64
  else none

/-- The size in kilobytes (R38). -/
def cacheKilobytes : CacheSize → Nat
  | .kB4  => 4
  | .kB8  => 8
  | .kB16 => 16
  | .kB32 => 32
  | .kB64 => 64

end Sys2Proof.Machine
end

