-- ==== Sys2Proof/Machine/Flags.lean ====
section
/-! DEFINITION. The block has no flags and no access writes one (10_state.md R42); the one way the processor's
flags reach it is the condition field of an access (30_encoding.md R65). -/

namespace Sys2Proof.Machine

/-- Whether the condition of an access holds: b1110 is "always"; of any other code the enclosing processor
says whether it holds on the present flags (30_encoding.md R60, R65, D20). -/
def condPassed (c : Cond) (s : State) : Bool :=
  c == 0xE#4 || s.inputs.condsHeld.contains c

/-- The rule of an access fires only if its condition has passed; otherwise nothing is checked and nothing
changes but the pc, which advances (R65). -/
def whenPassed (c : Cond) (s : State) (access : Answer) : Answer :=
  if condPassed c s then access else .next s.advance

end Sys2Proof.Machine
end

