-- ==== Sys2Proof/Machine/Signals.lean ====
section
/-! DEFINITION. The outputs (10_state.md R46): the four request signals (60_exceptions.md R112 to R117), where the
platform passes them (R118), and the exported cache size override (41_cache_size_override.md R105). -/

namespace Sys2Proof.Machine

/-- The level of a wire (60_exceptions.md R117). -/
inductive Level where
  | low
  | high
  deriving DecidableEq, Repr

/-- The request of one kind (60_exceptions.md R112 to R115, D10): some enabled counter overflows now. -/
def requested (e : EnableMask) (o : Overflow) : Bool :=
  (e.c && o.c) || (e.p2 && o.p2) || (e.p1 && o.p1) || (e.p0 && o.p0)

/-- `IRQ_REQ` (R112). -/
def State.irqReq (s : State) : Bool := requested s.irqen s.inputs.ovf

/-- `FIQ_REQ` (R113). -/
def State.fiqReq (s : State) : Bool := requested s.fiqen s.inputs.ovf

/-- `RST_REQ` (R114). -/
def State.rstReq (s : State) : Bool := requested s.rsten s.inputs.ovf

/-- `DBG_REQ` (R115; the fields of DBGEN, not of RSTEN: 90_conflicts.md C3). -/
def State.dbgReq (s : State) : Bool := requested s.dbgen s.inputs.ovf

/-- A signal asserted LOW (R117). -/
def activeLow (request : Bool) : Level := if request then .low else .high

/-- A signal asserted HIGH (R117). -/
def activeHigh (request : Bool) : Level := if request then .high else .low

/-- nVALIRQ (R112). -/
def State.nValIrq (s : State) : Level := activeLow s.irqReq

/-- nVALFIQ (R113). -/
def State.nValFiq (s : State) : Level := activeLow s.fiqReq

/-- nVALRESET (R114). -/
def State.nValReset (s : State) : Level := activeLow s.rstReq

/-- VALEDBGRQ (R115). -/
def State.valEdbgrq (s : State) : Level := activeHigh s.dbgReq

/-- The requests that reach the system interrupt controller, where the platform passes them on (R118):
from nVALIRQ and from nVALFIQ. -/
def State.atInterruptController (s : State) : Bool × Bool :=
  (s.params.routing.irqToInterruptController && s.irqReq,
   s.params.routing.fiqToInterruptController && s.fiqReq)

/-- Whether a request reaches the system reset controller (R118). What it does is the platform's: a reset it
causes is an event of `env`. -/
def State.atResetController (s : State) : Bool :=
  s.params.routing.resetToResetController && s.rstReq

/-- Whether a request reaches the external debugger (R118). -/
def State.atExternalDebugger (s : State) : Bool :=
  s.params.routing.debugToExternalDebugger && s.dbgReq

/-- The requests at the processor's own interrupt, fast interrupt and debug inputs, where the platform wires the signals
back (R118, D12, D14). What the processor does on them, and whether, is in no source (91_not_in_source.md N22): it
is an event of `env` (log 11). -/
def State.atProcessor (s : State) : Bool × Bool × Bool :=
  (s.params.routing.irqToProcessor && s.irqReq,
   s.params.routing.fiqToProcessor && s.fiqReq,
   s.params.routing.debugToProcessor && s.dbgReq)

/-- Whether nVALRESET, wired back to the processor's reset, requests one now: then "the next event is a reset"
(40_enable_set_clear.md R83, 60_exceptions.md R118, D13). -/
def State.resetAtProcessor (s : State) : Bool :=
  s.params.routing.resetToProcessor && s.rstReq

/-- The data cache size in effect, given the implemented one: the override's while there is one
(10_state.md R39, 41_cache_size_override.md R105). -/
def State.dcacheSize (s : State) (implemented : CacheSize) : CacheSize :=
  match s.cso with
  | some o => o.d
  | none   => implemented

/-- The instruction cache size in effect, given the implemented one (R39, R105). -/
def State.icacheSize (s : State) (implemented : CacheSize) : CacheSize :=
  match s.cso with
  | some o => o.i
  | none   => implemented

end Sys2Proof.Machine
end

