-- ==== Sys2Proof/Machine/Ops.lean ====
section
/-! DEFINITION. The named operations: instruction memory, the masks and LASTRD by name, access checks and the
fault, the shared read and write procedures of 40_enable_set_clear.md, the write of 41_cache_size_override.md,
and what the outside world does between two instructions. -/

namespace Sys2Proof.Machine

/-! ## Instruction memory -/

/-- The byte at an address; `none` where nothing has been placed (log 4). -/
def Memory.read : Memory → Nat → Option Byte
  | [], _ => none
  | (b, v) :: m, a => if a = b then some v else Memory.read m a

/-- Place a byte at an address, keeping the addresses rising. -/
def Memory.write : Memory → Nat → Byte → Memory
  | [], a, v => [(a, v)]
  | (b, w) :: m, a, v =>
    if a < b then (a, v) :: (b, w) :: m
    else if a = b then (a, v) :: m
    else (b, w) :: Memory.write m a v

/-- Whether every address of a memory lies above a bound, and they rise. -/
def Memory.risesFrom : Nat → Memory → Bool
  | _, [] => true
  | lo, (b, _) :: m => decide (lo ≤ b) && Memory.risesFrom (b + 1) m

/-- The canonical form: addresses strictly rising and inside the 32-bit address space. -/
def Memory.wf (m : Memory) : Bool :=
  Memory.risesFrom 0 m && m.all fun c => decide (c.1 < 2 ^ 32)

/-- The address of the `k`-th byte of the instruction at the pc; it wraps at the top (log 2). -/
def fetchAddr (pc : Word) (k : Nat) : Nat := (pc + BitVec.ofNat 32 k).toNat

/-- The four bytes at the pc, where all four have been placed. DESIGN CHOICE, unsafe (log 14): it reads the bytes placed
there after an admitted write of `VAL_CSOR` too, where the spec leaves open what the instruction cache holds
(20_memory.md R59, 70_reset_and_hazards.md R139, 91_not_in_source.md N18). -/
def State.fetch (s : State) : Option (List Byte) :=
  match Memory.read s.cpu.mem (fetchAddr s.cpu.pc 0), Memory.read s.cpu.mem (fetchAddr s.cpu.pc 1),
      Memory.read s.cpu.mem (fetchAddr s.cpu.pc 2), Memory.read s.cpu.mem (fetchAddr s.cpu.pc 3) with
  | some b0, some b1, some b2, some b3 => some [b0, b1, b2, b3]
  | _, _, _, _ => none

/-- Place a list of bytes from the `k`-th byte at the pc on. -/
def placeBytes (pc : Word) : Nat → List Byte → Memory → Memory
  | _, [], m => m
  | k, b :: bs, m => placeBytes pc (k + 1) bs (Memory.write m (fetchAddr pc k) b)

/-- Place an instruction word at the pc, in the byte order of the machine. -/
def State.placeWord (s : State) (w : Word) : State :=
  { s with cpu := { s.cpu with
      mem := placeBytes s.cpu.pc 0 (bytesOfWord s.params.byteOrder w) s.cpu.mem } }

/-! ## The enable registers -/

/-- The number of an enable register, its `opc2` (00_scope.md R11). -/
def regNumber : EnReg → Fin 8
  | .irqEnset => 0
  | .fiqEnset => 1
  | .rstEnset => 2
  | .dbgEnset => 3
  | .irqEnclr => 4
  | .fiqEnclr => 5
  | .rstEnclr => 6
  | .dbgEnclr => 7

/-- The request kind whose mask an enable register reaches (00_scope.md R11, 10_state.md R22 to R25). -/
def regKind : EnReg → Kind
  | .irqEnset | .irqEnclr => .irq
  | .fiqEnset | .fiqEnclr => .fiq
  | .rstEnset | .rstEnclr => .rst
  | .dbgEnset | .dbgEnclr => .dbg

/-- Whether an enable register is a Set or a Clear register (00_scope.md R11). -/
def regPort : EnReg → Port
  | .irqEnset | .fiqEnset | .rstEnset | .dbgEnset => .set
  | .irqEnclr | .fiqEnclr | .rstEnclr | .dbgEnclr => .clr

/-- The enable mask of a request kind (10_state.md R22 to R25). -/
def State.mask (s : State) : Kind → EnableMask
  | .irq => s.irqen
  | .fiq => s.fiqen
  | .rst => s.rsten
  | .dbg => s.dbgen

/-- Write the enable mask of a request kind. -/
def State.setMask (s : State) (k : Kind) (e : EnableMask) : State :=
  match k with
  | .irq => { s with irqen := e }
  | .fiq => { s with fiqen := e }
  | .rst => { s with rsten := e }
  | .dbg => { s with dbgen := e }

/-- `LASTRD[reg]` (10_state.md R47). -/
def State.lastRead (s : State) (reg : EnReg) : Option (BitVec 28) := s.lastRd[regNumber reg]

/-- `LASTRD[reg] <- u` (40_enable_set_clear.md R74). -/
def State.setLastRead (s : State) (reg : EnReg) (u : BitVec 28) : State :=
  { s with lastRd := s.lastRd.set (regNumber reg) (some u) }

/-- `WriteSet(E, v)` (40_enable_set_clear.md R75, D1): a function bit 1 sets its enable, 0 leaves it. -/
def writeSet (e f : EnableMask) : EnableMask :=
  ⟨f.c || e.c, f.p2 || e.p2, f.p1 || e.p1, f.p0 || e.p0⟩

/-- `WriteClr(E, v)` (R76, D1): a function bit 1 clears its enable, 0 leaves it. -/
def writeClr (e f : EnableMask) : EnableMask :=
  ⟨!f.c && e.c, !f.p2 && e.p2, !f.p1 && e.p1, !f.p0 && e.p0⟩

/-- The write of a Set or a Clear register (R75, R76); `f` is the function bits of the value. -/
def writePort : Port → EnableMask → EnableMask → EnableMask
  | .set => writeSet
  | .clr => writeClr

/-- Whether the reserved bits of a written value are admitted (R77, D4): zero, or, under
`zero_or_preserved`, those the most recent read of that same register returned. -/
def sbzpAdmits (p : SbzpPolicy) (last : Option (BitVec 28)) (r : BitVec 28) : Bool :=
  r == 0#28 || (p == .zeroOrPreserved && last == some r)

/-! ## Access checks and the fault -/

/-- `EnAccessOK = PRIV or USEREN_EN` (40_enable_set_clear.md R73). -/
def enAccessOk (s : State) : Bool := s.inputs.priv || s.inputs.userEn

/-- `CsoAccessOK = PRIV` (41_cache_size_override.md R100). -/
def csoAccessOk (s : State) : Bool := s.inputs.priv

/-- `raise Undefined()` (60_exceptions.md R122, R123, R125): taking the block's one exception. It saves
nothing and changes nothing of the block; the entry and the return are the processor's and in no source
(log 6). -/
def raiseUndefined : Answer := .fault .undefined

/-- The refusal of `d` = 15 (30_encoding.md R64), which comes before the access check (R124). -/
def withGeneral (d : Reg) (access : Fin 15 → Answer) : Answer :=
  match general? d with
  | some r => access r
  | none   => .refused .rdIsR15

/-! ## The shared procedures -/

/-- `draw(28)` (00_scope.md R9): the bits, and the state in which the next draw is another. -/
def State.draw28 (s : State) : BitVec 28 × State :=
  (Config.freeReserved s.draws, { s with draws := s.draws + 1 })

/-- The effect of `ReadEn` once the access is permitted (40_enable_set_clear.md R74). -/
def readEffect (reg : EnReg) (r : Fin 15) (s : State) : State :=
  let (u, t) := s.draw28
  ((t.setLastRead reg u).setX r (readValue (s.mask (regKind reg)) u)).advance

/-- `ReadEn(reg, E, d)` (R74), E the mask of the register's kind. -/
def readEn (reg : EnReg) (d : Reg) (s : State) : Answer :=
  withGeneral d fun r =>
    if enAccessOk s then .next (readEffect reg r s) else raiseUndefined

/-- The effect of `WriteEn` once the write is admitted (R75, R76, R77): admitted reserved bits do nothing. -/
def writeEffect (reg : EnReg) (v : Word) (s : State) : State :=
  (s.setMask (regKind reg)
    (writePort (regPort reg) (s.mask (regKind reg)) (functionBits v))).advance

/-- `WriteEn(reg, kind, E, d)` (R77). -/
def writeEn (reg : EnReg) (d : Reg) (s : State) : Answer :=
  withGeneral d fun r =>
    if enAccessOk s then
      if sbzpAdmits s.params.sbzpPolicy (s.lastRead reg) (reservedBits (s.getX r)) then
        .next (writeEffect reg (s.getX r) s)
      else .refused .sbzpViolated
    else raiseUndefined

/-- The value checks of a write of `VAL_CSOR` (41_cache_size_override.md R102, R103), in the order of R101. -/
def csoValue (p : Params) (v : Word) : Except Refusal Override :=
  if csoReserved v ≠ 0#24 then .error .sbzViolated
  else
    match cacheSize? (csoDcache v), cacheSize? (csoIcache v) with
    | some d, some i =>
      if p.csoAllowedD.contains d && p.csoAllowedI.contains i then .ok ⟨d, i⟩
      else .error .cacheSizeNotIntegrated
    | _, _ => .error .unlistedCacheSize

/-- `CSO <- o` (R101). -/
def State.setCso (s : State) (o : Override) : State := { s with cso := some o }

/-- `WriteCso(d)` (R101). -/
def writeCso (d : Reg) (s : State) : Answer :=
  withGeneral d fun r =>
    if csoAccessOk s then
      match csoValue s.params (s.getX r) with
      | .ok o    => .next (s.setCso o).advance
      | .error e => .refused e
    else raiseUndefined

/-! ## Between two instructions -/

/-- The block returns to its reset state (70_reset_and_hazards.md R135): the masks are drawn, no override is in
effect, LASTRD is absent. The processor's state after reset is given from outside (R136). -/
def State.resetBlock (s : State) (c : Cpu) (i : Inputs) : State where
  irqen  := Config.resetIrqen s.draws
  fiqen  := Config.resetFiqen s.draws
  rsten  := Config.resetRsten s.draws
  dbgen  := Config.resetDbgen s.draws
  cso    := none
  lastRd := Vector.replicate 8 none
  cpu    := c
  inputs := i
  params := s.params
  draws  := s.draws + 1
  env    := s.env

/-- The effect of an event. -/
def State.apply (s : State) : EnvEvent → State
  | .idle          => s
  | .inputs i      => { s with inputs := i }
  | .processor c i => { s with cpu := c, inputs := i }
  | .reset c i     => s.resetBlock c i

/-- The next event lands, if there is one (log 3). -/
def State.landEvent (s : State) : State :=
  match s.env with
  | []      => s
  | e :: es => State.apply { s with env := es } e

/-- The reset that nVALRESET causes where it is wired back (D13, R136): the block as after any reset; of the processor,
memory is kept (DESIGN CHOICE, unsafe) and the rest is free (log 15). -/
def State.wiredReset (s : State) : State :=
  s.resetBlock
    { x := Config.resetX s.draws, pc := Config.resetPc s.draws, mem := s.cpu.mem }
    { priv := Config.resetPriv s.draws, userEn := Config.resetUserEn s.draws, ovf := Config.resetOvf s.draws,
      condsHeld := Config.resetConds s.draws }

/-- What happens before the next step: an event lands, unless a reset wired back is requested, which is then the
next event (40_enable_set_clear.md R83). -/
def State.settle (s : State) : State :=
  if s.resetAtProcessor then s else s.landEvent

/-- What a step adds after its instruction. -/
def afterInstruction : Answer → Answer
  | .next t    => .next t.settle
  | .fault f   => .fault f
  | .refused r => .refused r

end Sys2Proof.Machine
end

