-- ==== Sys2Proof/Machine/CacheOverride.lean ====
section
/-! DEFINITION. The write of the Cache Size Override Register and the read it does not have (41_cache_size_override.md). -/

namespace Sys2Proof.Machine

/-- Write of `VAL_CSOR` (41_cache_size_override.md R101): `WriteCso(d)`. -/
def execMcrCsor (c : Cond) (d : Reg) (s : State) : Answer :=
  whenPassed c s (writeCso d s)

/-- Read of the write-only `VAL_CSOR` (R104): refused in every mode and for every `d`, before any other check
(60_exceptions.md R124). Row 18 does nothing with its Rd field: "the model must not return a value". -/
def execMrcCsor (c : Cond) (_d : Reg) (s : State) : Answer :=
  whenPassed c s (.refused .readOfWriteOnly)

end Sys2Proof.Machine
end

