-- ==== Sys2Proof/Machine/EnableClear.lean ====
section
/-! DEFINITION. The eight accesses of the four Enable Clear registers (40_enable_set_clear.md R86 to R93). -/

namespace Sys2Proof.Machine

/-- Read of `VAL_IRQ_ENCLR` (40_enable_set_clear.md R86): `ReadEn(VAL_IRQ_ENCLR, IRQEN, d)`. -/
def execMrcIrqEnclr (c : Cond) (d : Reg) (s : State) : Answer :=
  whenPassed c s (readEn .irqEnclr d s)

/-- Write of `VAL_IRQ_ENCLR` (40_enable_set_clear.md R87): `WriteEn(VAL_IRQ_ENCLR, Clr, IRQEN, d)`. -/
def execMcrIrqEnclr (c : Cond) (d : Reg) (s : State) : Answer :=
  whenPassed c s (writeEn .irqEnclr d s)

/-- Read of `VAL_FIQ_ENCLR` (40_enable_set_clear.md R88): `ReadEn(VAL_FIQ_ENCLR, FIQEN, d)`. -/
def execMrcFiqEnclr (c : Cond) (d : Reg) (s : State) : Answer :=
  whenPassed c s (readEn .fiqEnclr d s)

/-- Write of `VAL_FIQ_ENCLR` (40_enable_set_clear.md R89): `WriteEn(VAL_FIQ_ENCLR, Clr, FIQEN, d)`. -/
def execMcrFiqEnclr (c : Cond) (d : Reg) (s : State) : Answer :=
  whenPassed c s (writeEn .fiqEnclr d s)

/-- Read of `VAL_RST_ENCLR` (40_enable_set_clear.md R90): `ReadEn(VAL_RST_ENCLR, RSTEN, d)`. -/
def execMrcRstEnclr (c : Cond) (d : Reg) (s : State) : Answer :=
  whenPassed c s (readEn .rstEnclr d s)

/-- Write of `VAL_RST_ENCLR` (40_enable_set_clear.md R91): `WriteEn(VAL_RST_ENCLR, Clr, RSTEN, d)`. -/
def execMcrRstEnclr (c : Cond) (d : Reg) (s : State) : Answer :=
  whenPassed c s (writeEn .rstEnclr d s)

/-- Read of `VAL_DBG_ENCLR` (40_enable_set_clear.md R92): `ReadEn(VAL_DBG_ENCLR, DBGEN, d)`. -/
def execMrcDbgEnclr (c : Cond) (d : Reg) (s : State) : Answer :=
  whenPassed c s (readEn .dbgEnclr d s)

/-- Write of `VAL_DBG_ENCLR` (40_enable_set_clear.md R93): `WriteEn(VAL_DBG_ENCLR, Clr, DBGEN, d)`. -/
def execMcrDbgEnclr (c : Cond) (d : Reg) (s : State) : Answer :=
  whenPassed c s (writeEn .dbgEnclr d s)

end Sys2Proof.Machine
end

