-- ==== Sys2Proof/Machine/EnableSet.lean ====
section
/-! DEFINITION. The eight accesses of the four Enable Set registers (40_enable_set_clear.md R78 to R85). -/

namespace Sys2Proof.Machine

/-- Read of `VAL_IRQ_ENSET` (40_enable_set_clear.md R78): `ReadEn(VAL_IRQ_ENSET, IRQEN, d)`. -/
def execMrcIrqEnset (c : Cond) (d : Reg) (s : State) : Answer :=
  whenPassed c s (readEn .irqEnset d s)

/-- Write of `VAL_IRQ_ENSET` (40_enable_set_clear.md R79): `WriteEn(VAL_IRQ_ENSET, Set, IRQEN, d)`. -/
def execMcrIrqEnset (c : Cond) (d : Reg) (s : State) : Answer :=
  whenPassed c s (writeEn .irqEnset d s)

/-- Read of `VAL_FIQ_ENSET` (40_enable_set_clear.md R80): `ReadEn(VAL_FIQ_ENSET, FIQEN, d)`. -/
def execMrcFiqEnset (c : Cond) (d : Reg) (s : State) : Answer :=
  whenPassed c s (readEn .fiqEnset d s)

/-- Write of `VAL_FIQ_ENSET` (40_enable_set_clear.md R81): `WriteEn(VAL_FIQ_ENSET, Set, FIQEN, d)`. -/
def execMcrFiqEnset (c : Cond) (d : Reg) (s : State) : Answer :=
  whenPassed c s (writeEn .fiqEnset d s)

/-- Read of `VAL_RST_ENSET` (40_enable_set_clear.md R82): `ReadEn(VAL_RST_ENSET, RSTEN, d)`. -/
def execMrcRstEnset (c : Cond) (d : Reg) (s : State) : Answer :=
  whenPassed c s (readEn .rstEnset d s)

/-- Write of `VAL_RST_ENSET` (40_enable_set_clear.md R83): `WriteEn(VAL_RST_ENSET, Set, RSTEN, d)`. -/
def execMcrRstEnset (c : Cond) (d : Reg) (s : State) : Answer :=
  whenPassed c s (writeEn .rstEnset d s)

/-- Read of `VAL_DBG_ENSET` (40_enable_set_clear.md R84): `ReadEn(VAL_DBG_ENSET, DBGEN, d)`. -/
def execMrcDbgEnset (c : Cond) (d : Reg) (s : State) : Answer :=
  whenPassed c s (readEn .dbgEnset d s)

/-- Write of `VAL_DBG_ENSET` (40_enable_set_clear.md R85): `WriteEn(VAL_DBG_ENSET, Set, DBGEN, d)`. -/
def execMcrDbgEnset (c : Cond) (d : Reg) (s : State) : Answer :=
  whenPassed c s (writeEn .dbgEnset d s)

end Sys2Proof.Machine
end

