-- ==== Sys2Proof/Machine/Dispatch.lean ====
section
/-! DEFINITION. Which meaning each instruction has: one arm per constructor. -/

namespace Sys2Proof.Machine

def exec (i : Instr) (s : State) : Host.Outcome State Fault Refusal :=
  match i with
  | .mrcIrqEnset c d => Sys2Proof.Machine.execMrcIrqEnset c d s
  | .mcrIrqEnset c d => Sys2Proof.Machine.execMcrIrqEnset c d s
  | .mrcFiqEnset c d => Sys2Proof.Machine.execMrcFiqEnset c d s
  | .mcrFiqEnset c d => Sys2Proof.Machine.execMcrFiqEnset c d s
  | .mrcRstEnset c d => Sys2Proof.Machine.execMrcRstEnset c d s
  | .mcrRstEnset c d => Sys2Proof.Machine.execMcrRstEnset c d s
  | .mrcDbgEnset c d => Sys2Proof.Machine.execMrcDbgEnset c d s
  | .mcrDbgEnset c d => Sys2Proof.Machine.execMcrDbgEnset c d s
  | .mrcIrqEnclr c d => Sys2Proof.Machine.execMrcIrqEnclr c d s
  | .mcrIrqEnclr c d => Sys2Proof.Machine.execMcrIrqEnclr c d s
  | .mrcFiqEnclr c d => Sys2Proof.Machine.execMrcFiqEnclr c d s
  | .mcrFiqEnclr c d => Sys2Proof.Machine.execMcrFiqEnclr c d s
  | .mrcRstEnclr c d => Sys2Proof.Machine.execMrcRstEnclr c d s
  | .mcrRstEnclr c d => Sys2Proof.Machine.execMcrRstEnclr c d s
  | .mrcDbgEnclr c d => Sys2Proof.Machine.execMrcDbgEnclr c d s
  | .mcrDbgEnclr c d => Sys2Proof.Machine.execMcrDbgEnclr c d s
  | .mcrCsor c d => Sys2Proof.Machine.execMcrCsor c d s
  | .mrcCsor c d => Sys2Proof.Machine.execMrcCsor c d s

end Sys2Proof.Machine
end

