-- ==== Sys2Proof/Machine/Step.lean ====
section
/-! DEFINITION. One step: a reset that is requested and wired back; else fetch, decode, execute, then the next
event of the outside world. -/

namespace Sys2Proof.Machine

/-- The reset nVALRESET requests, where it is wired back (40_enable_set_clear.md R83, D13); else one instruction of the
enclosing processor's program, and the event that lands after it. -/
def step (s : State) : Host.Outcome State Fault Refusal :=
  if s.resetAtProcessor then .next s.wiredReset.settle
  else
    match s.fetch with
    | none => .refused .noInstruction
    | some bytes =>
      match decodeBytes s.params.byteOrder bytes with
      | .ok (i, _)         => afterInstruction (exec i s)
      | .error .notMine    => .refused .notMine
      | .error .truncated  => .refused .noInstruction

/-- The state with an instruction word placed where the step fetches: the load of a program from outside (log 4). A
reset requested and wired back would come before any instruction: then no counter overflows either. -/
def State.withFetchWord (s : State) (nbits w : Nat) : State :=
  let t := s.placeWord (tableWord nbits w)
  if t.resetAtProcessor then { t with inputs := { t.inputs with ovf := ⟨false, false, false, false⟩ } } else t

end Sys2Proof.Machine
end

