-- ==== Sys2Proof/Safety.lean ====
section
/-! DEFINITION. The terms claims are stated in: the block's own state, which instructions reach which state, the
invariant of the machine, and runs. -/

namespace Sys2Proof

/-- The registers an instruction reads (`MRC`). -/
def Instr.reads? : Instr → Option EnReg
  | .mrcIrqEnset _ _ => some .irqEnset
  | .mrcFiqEnset _ _ => some .fiqEnset
  | .mrcRstEnset _ _ => some .rstEnset
  | .mrcDbgEnset _ _ => some .dbgEnset
  | .mrcIrqEnclr _ _ => some .irqEnclr
  | .mrcFiqEnclr _ _ => some .fiqEnclr
  | .mrcRstEnclr _ _ => some .rstEnclr
  | .mrcDbgEnclr _ _ => some .dbgEnclr
  | .mcrIrqEnset _ _ | .mcrFiqEnset _ _ | .mcrRstEnset _ _ | .mcrDbgEnset _ _
  | .mcrIrqEnclr _ _ | .mcrFiqEnclr _ _ | .mcrRstEnclr _ _ | .mcrDbgEnclr _ _
  | .mcrCsor _ _ | .mrcCsor _ _ => none

/-- The enable register an instruction writes (`MCR`). -/
def Instr.writes? : Instr → Option EnReg
  | .mcrIrqEnset _ _ => some .irqEnset
  | .mcrFiqEnset _ _ => some .fiqEnset
  | .mcrRstEnset _ _ => some .rstEnset
  | .mcrDbgEnset _ _ => some .dbgEnset
  | .mcrIrqEnclr _ _ => some .irqEnclr
  | .mcrFiqEnclr _ _ => some .fiqEnclr
  | .mcrRstEnclr _ _ => some .rstEnclr
  | .mcrDbgEnclr _ _ => some .dbgEnclr
  | .mrcIrqEnset _ _ | .mrcFiqEnset _ _ | .mrcRstEnset _ _ | .mrcDbgEnset _ _
  | .mrcIrqEnclr _ _ | .mrcFiqEnclr _ _ | .mrcRstEnclr _ _ | .mrcDbgEnclr _ _
  | .mcrCsor _ _ | .mrcCsor _ _ => none

/-- Whether an instruction is one of the sixteen accesses to the enable registers (40_enable_set_clear.md). -/
def Instr.isEnableAccess (i : Instr) : Bool := i.reads?.isSome || i.writes?.isSome

/-- Whether an instruction is the write of the Cache Size Override Register. -/
def Instr.isCsoWrite : Instr → Bool
  | .mcrCsor _ _ => true
  | .mcrIrqEnset _ _ | .mcrFiqEnset _ _ | .mcrRstEnset _ _ | .mcrDbgEnset _ _
  | .mcrIrqEnclr _ _ | .mcrFiqEnclr _ _ | .mcrRstEnclr _ _ | .mcrDbgEnclr _ _
  | .mrcIrqEnset _ _ | .mrcFiqEnset _ _ | .mrcRstEnset _ _ | .mrcDbgEnset _ _
  | .mrcIrqEnclr _ _ | .mrcFiqEnclr _ _ | .mrcRstEnclr _ _ | .mrcDbgEnclr _ _
  | .mrcCsor _ _ => false

namespace Machine

/-- The whole state of the block (10_state.md R20): five items. -/
structure Block where
  irqen : EnableMask
  fiqen : EnableMask
  rsten : EnableMask
  dbgen : EnableMask
  cso   : Option Override
  deriving DecidableEq, Repr

/-- The block's part of the state. -/
def State.block (s : State) : Block := ⟨s.irqen, s.fiqen, s.rsten, s.dbgen, s.cso⟩

/-- An override selects only sizes whose RAM has been integrated (41_cache_size_override.md R103). -/
def Override.allowed (p : Params) (o : Override) : Bool :=
  p.csoAllowedD.contains o.d && p.csoAllowedI.contains o.i

/-- The memory an event brings with it is in canonical form. -/
def EnvEvent.wf : EnvEvent → Bool
  | .idle          => true
  | .inputs _      => true
  | .processor c _ => Memory.wf c.mem
  | .reset c _     => Memory.wf c.mem

/-- The invariant: the override in effect selects only integrated sizes, and memory, now and as events bring it,
keeps its canonical form. -/
structure State.Inv (s : State) : Prop where
  overrideAllowed : ∀ o, s.cso = some o → o.allowed s.params = true
  memoryWf        : Memory.wf s.cpu.mem = true
  eventsWf        : ∀ e ∈ s.env, e.wf = true

/-- The event that lands after the next instruction is no reset. -/
def State.noResetNext (s : State) : Prop :=
  ∀ c i es, s.env ≠ .reset c i :: es

/-- `Runs n s t`: `n` steps, each answering a next state, lead from `s` to `t`. -/
def Runs : Nat → State → State → Prop
  | 0, s, t => s = t
  | n + 1, s, t => ∃ u, step s = .next u ∧ Runs n u t

end Machine

end Sys2Proof
end

