-- ==== Sys2Proof/Certificates/Slice0/Obligations.lean ====
section
/-! DEFINITION. The statements for the provers. Many rules of the spec are marked there as its own decision (D1 to
D30 of 92_eei_decisions.md); a statement that rests on one says so and has basis 'derived'. -/

open Sys2Proof Sys2Proof.Machine

namespace Sys2Proof.Claims

/-! ## Terms of the statements -/

/-- The condition of an access has passed: it is "always", or the enclosing processor says it holds
(30_encoding.md R60, R65). -/
def Passed (c : Cond) (s : State) : Prop := c = 14#4 ∨ c ∈ s.inputs.condsHeld

/-- An access to an enable register is permitted: `PRIV or USEREN_EN` (40_enable_set_clear.md R73). -/
def Permitted (s : State) : Prop := s.inputs.priv = true ∨ s.inputs.userEn = true

/-- The Rd field that names general register `r` (r0 to r14). -/
def regNo (r : Fin 15) : Reg := BitVec.ofNat 4 r

/-- The Rd field that names r15. -/
def r15 : Reg := 15#4

/-- What the processor holds after an access that writes no general register: the pc is past the instruction. -/
def cpuPast (s : State) : Cpu := { s.cpu with pc := s.cpu.pc + 4#32 }

/-- What the processor holds after an access that writes `v` to general register `r`. -/
def cpuWith (s : State) (r : Fin 15) (v : Word) : Cpu :=
  { s.cpu with x := s.cpu.x.set r v, pc := s.cpu.pc + 4#32 }

/-- `v` carries mask `e` in bits [31], [2], [1], [0] (10_state.md R26). -/
def Carries (v : Word) (e : EnableMask) : Prop :=
  v.getLsbD 31 = e.c ∧ v.getLsbD 2 = e.p2 ∧ v.getLsbD 1 = e.p1 ∧ v.getLsbD 0 = e.p0

/-- Instruction `i` is a completed read of the enable register numbered `n`, whose mask is `e`, into register `r`:
the function bits are the mask, the reserved bits the present draw, which LASTRD records; nothing else changes
but the pc and the draw counter. -/
def ReadsInto (i : Instr) (n : Fin 8) (e : EnableMask) (r : Fin 15) (s : State) : Prop :=
  ∃ v : Word, Carries v e ∧ v.extractLsb' 3 28 = Config.freeReserved s.draws ∧
    exec i s = .next { s with
      cpu := cpuWith s r v
      lastRd := s.lastRd.set n (some (Config.freeReserved s.draws))
      draws := s.draws + 1 }

/-- The reserved bits [30:3] of `v` may be written to the enable register numbered `n`
(40_enable_set_clear.md R77). -/
def Admitted (s : State) (n : Fin 8) (v : Word) : Prop :=
  v.extractLsb' 3 28 = 0#28 ∨
    (s.params.sbzpPolicy = .zeroOrPreserved ∧ s.lastRd[n] = some (v.extractLsb' 3 28))

/-- Mask `e` after a write of `v` to its Set register (R75). -/
def afterSet (e : EnableMask) (v : Word) : EnableMask :=
  ⟨e.c || v.getLsbD 31, e.p2 || v.getLsbD 2, e.p1 || v.getLsbD 1, e.p0 || v.getLsbD 0⟩

/-- Mask `e` after a write of `v` to its Clear register (R76). -/
def afterClr (e : EnableMask) (v : Word) : EnableMask :=
  ⟨e.c && !v.getLsbD 31, e.p2 && !v.getLsbD 2, e.p1 && !v.getLsbD 1, e.p0 && !v.getLsbD 0⟩

/-- All four enables. -/
def allOn : EnableMask := ⟨true, true, true, true⟩

/-- No enable. -/
def allOff : EnableMask := ⟨false, false, false, false⟩

/-- Some counter is both enabled in `e` and overflowing. -/
def Meets (e : EnableMask) (o : Overflow) : Prop :=
  (e.c = true ∧ o.c = true) ∨ (e.p2 = true ∧ o.p2 = true) ∨ (e.p1 = true ∧ o.p1 = true) ∨
    (e.p0 = true ∧ o.p0 = true)

/-- The instructions `f c d` are at the coordinate (c15, c1, `n`) (20_memory.md R48, 30_encoding.md R60). -/
def AtCoordinate (f : Cond → Reg → Instr) (n : BitVec 3) : Prop :=
  ∀ (c : Cond) (d : Reg), (encode (f c d)).extractLsb' 16 4 = 15#4 ∧
    (encode (f c d)).extractLsb' 0 4 = 1#4 ∧ (encode (f c d)).extractLsb' 5 3 = n

/-- A mask is reached through a Set register at (c15, c1, `m`) and a Clear register at (c15, c1, `n`): reads of
either return it, and writing every function bit of the one turns all of it on, of the other all of it off. -/
def ReachedThrough (mask : State → EnableMask) (m : BitVec 3) (readSet setAll : Cond → Reg → Instr)
    (n : BitVec 3) (readClr clearAll : Cond → Reg → Instr) : Prop :=
  AtCoordinate readSet m ∧ AtCoordinate setAll m ∧ AtCoordinate readClr n ∧ AtCoordinate clearAll n ∧
  ∀ (r : Fin 15) (s : State), s.inputs.priv = true →
    (∃ t, exec (readSet 14#4 (regNo r)) s = .next t ∧ Carries t.cpu.x[r] (mask s)) ∧
    (∃ t, exec (readClr 14#4 (regNo r)) s = .next t ∧ Carries t.cpu.x[r] (mask s)) ∧
    (s.cpu.x[r] = 0x80000007#32 →
      (∃ t, exec (setAll 14#4 (regNo r)) s = .next t ∧ mask t = allOn) ∧
      (∃ t, exec (clearAll 14#4 (regNo r)) s = .next t ∧ mask t = allOff))

/-- The numbers of the two registers R22 to R25 name for each mask, their last coordinate in (c15, c1, n). -/
def pairNumbers : Kind → Fin 8 × Fin 8
  | .irq => (0, 4)
  | .fiq => (1, 5)
  | .rst => (2, 6)
  | .dbg => (3, 7)

/-- The same answer, its state changed by `f`. -/
def mapNext (f : State → State) : Answer → Answer
  | .next t    => .next (f t)
  | .fault q   => .fault q
  | .refused q => .refused q

/-- The eighteen rows of the table of 30_encoding.md R63: the match value and the instruction. -/
def rows : List (Word × (Cond → Reg → Instr)) :=
  [(0x0E1F0F11#32, .mrcIrqEnset), (0x0E0F0F11#32, .mcrIrqEnset),
   (0x0E1F0F31#32, .mrcFiqEnset), (0x0E0F0F31#32, .mcrFiqEnset),
   (0x0E1F0F51#32, .mrcRstEnset), (0x0E0F0F51#32, .mcrRstEnset),
   (0x0E1F0F71#32, .mrcDbgEnset), (0x0E0F0F71#32, .mcrDbgEnset),
   (0x0E1F0F91#32, .mrcIrqEnclr), (0x0E0F0F91#32, .mcrIrqEnclr)] ++
  [(0x0E1F0FB1#32, .mrcFiqEnclr), (0x0E0F0FB1#32, .mcrFiqEnclr),
   (0x0E1F0FD1#32, .mrcRstEnclr), (0x0E0F0FD1#32, .mcrRstEnclr),
   (0x0E1F0FF1#32, .mrcDbgEnclr), (0x0E0F0FF1#32, .mcrDbgEnclr),
   (0x0E0F0F1E#32, .mcrCsor), (0x0E1F0F1E#32, .mrcCsor)]

end Sys2Proof.Claims

open Sys2Proof.Claims

/-! ## Encoding -/

/-- Words of 95_test_vectors.md V9, of both families and both directions, decode as listed; the encodings are the
spec's from general knowledge (D18). -/
def Obligations.ListedWordsDecodeAsListed : Prop :=
  decodeWord 0xEE1F0F11#32 = .ok (.mrcIrqEnset 14#4 0#4) ∧
  decodeWord 0xEE0F3F91#32 = .ok (.mcrIrqEnclr 14#4 3#4) ∧
  decodeWord 0xEE1FEFF1#32 = .ok (.mrcDbgEnclr 14#4 14#4) ∧
  decodeWord 0xEE0F2F1E#32 = .ok (.mcrCsor 14#4 2#4) ∧
  decodeWord 0xEE1F5F1E#32 = .ok (.mrcCsor 14#4 5#4) ∧
  decodeWord 0xEE0FFF51#32 = .ok (.mcrRstEnset 14#4 15#4) ∧
  decodeWord 0x0E0F1F11#32 = .ok (.mcrIrqEnset 0#4 1#4) ∧
  decodeWord 0xFE0F1F11#32 = .error .notMine ∧
  decodeWord 0xEE0F0F3E#32 = .error .notMine

/-- Decoding the word of a well-formed instruction gives that instruction back, all eighteen, every condition and
every Rd. -/
def Obligations.DecodeOfEncodeIsTheInstruction : Prop :=
  ∀ i : Instr, i.wellFormed = true → decodeWord (encode i) = .ok i

/-- A word the decoder accepts is the encoding of the instruction it gives, which is well formed: each word has one
meaning and no bit of it is dropped. -/
def Obligations.EncodeOfDecodeIsTheWord : Prop :=
  ∀ (w : Word) (i : Instr), decodeWord w = .ok i → i.wellFormed = true ∧ encode i = w

/-- The table of R63: a word decodes to a row exactly if it has the row's match value under the mask `0x0FFF0FFF`
and a condition other than b1111; its fields are bits [31:28] and [15:12]. -/
def Obligations.WordIsARowExactlyOnItsMatchValue : Prop :=
  ∀ w : Word, ∀ row ∈ rows, ∀ (c : Cond) (d : Reg),
    decodeWord w = .ok (row.2 c d) ↔
      (w &&& 0x0FFF0FFF#32 = row.1 ∧ w.extractLsb' 28 4 ≠ 15#4 ∧
        c = w.extractLsb' 28 4 ∧ d = w.extractLsb' 12 4)

/-- Any other coprocessor coordinate, coprocessor or instruction class is answered `not_mine` (R69, R70, decision
D28): the word is rejected exactly if it matches no row, or its condition is b1111. -/
def Obligations.EveryOtherWordIsNotMine : Prop :=
  ∀ w : Word, decodeWord w = .error .notMine ↔
    (w.extractLsb' 28 4 = 15#4 ∨ ∀ row ∈ rows, w &&& 0x0FFF0FFF#32 ≠ row.1)

/-- In either byte order of instruction words (a parameter, D15), the bytes of a well-formed instruction decode to
it and leave the bytes after it. -/
def Obligations.BytesDecodeInEitherOrder : Prop :=
  ∀ (o : ByteOrder) (i : Instr) (rest : List Byte), i.wellFormed = true →
    (encodeBytes o i).length = 4 ∧ decodeBytes o (encodeBytes o i ++ rest) = .ok (i, rest)

/-! ## The step -/

/-- When no reset is requested and wired back, and the four bytes at the pc (the address wraps at the top of memory,
log 2) are those of a well-formed instruction, the step is that instruction's `exec`, and then the next event of
the environment lands, unless the instruction has left such a reset requested (log 15). -/
def Obligations.StepExecutesTheInstructionAtThePc : Prop :=
  ∀ (s : State) (i : Instr), s.resetAtProcessor = false → i.wellFormed = true →
    (∀ k : Fin 4, Memory.read s.cpu.mem (s.cpu.pc + BitVec.ofNat 32 k).toNat =
      (encodeBytes s.params.byteOrder i)[k]?) →
    step s = mapNext State.settle (exec i s)

/-- When no reset is requested and wired back: a step with fewer than four bytes at the pc is refused as having no
instruction; one at a word that is not the block's is refused as not its own (log 4). -/
def Obligations.StepStopsByNameWithoutAnInstructionOfTheBlock : Prop :=
  (∀ (s : State) (k : Fin 4), s.resetAtProcessor = false →
    Memory.read s.cpu.mem (s.cpu.pc + BitVec.ofNat 32 k).toNat = none →
    step s = .refused .noInstruction) ∧
  (∀ (s : State) (w : Word), s.resetAtProcessor = false → decodeWord w = .error .notMine →
    (∀ k : Fin 4, Memory.read s.cpu.mem (s.cpu.pc + BitVec.ofNat 32 k).toNat =
      (bytesOfWord s.params.byteOrder w)[k]?) →
    step s = .refused .notMine)

/-- The load of one instruction word from outside (log 4): from every state the next step runs exactly it. -/
def Obligations.LoadedWordRunsNext : Prop :=
  ∀ (s : State) (w : Nat) (i : Instr), decodeTableWord 32 w = some i →
    step (s.withFetchWord 32 w) = mapNext State.settle (exec i (s.withFetchWord 32 w))

/-- What lands after an instruction (log 3): nothing; other inputs, OVF, PRIV and USEREN_EN being functions of time;
another state of the processor; or a reset, after which the block is as R135 says, its masks drawn anew. The
block itself changes only on the reset. While a reset is requested and wired back (log 15) no event lands. -/
def Obligations.EventsBetweenInstructionsDoWhatTheySay : Prop :=
  (∀ s : State, s.resetAtProcessor = true → s.settle = s) ∧
  (∀ s : State, s.resetAtProcessor = false → s.settle = s.landEvent) ∧
  (∀ s : State, s.env = [] → s.landEvent = s) ∧
  (∀ (s : State) (es : List EnvEvent), s.env = .idle :: es → s.landEvent = { s with env := es }) ∧
  (∀ (s : State) (i : Inputs) (es : List EnvEvent), s.env = .inputs i :: es →
    s.landEvent = { s with inputs := i, env := es }) ∧
  (∀ (s : State) (c : Cpu) (i : Inputs) (es : List EnvEvent), s.env = .processor c i :: es →
    s.landEvent = { s with cpu := c, inputs := i, env := es }) ∧
  (∀ (s : State) (c : Cpu) (i : Inputs) (es : List EnvEvent), s.env = .reset c i :: es →
    s.landEvent =
      { irqen := Config.resetIrqen s.draws, fiqen := Config.resetFiqen s.draws,
        rsten := Config.resetRsten s.draws, dbgen := Config.resetDbgen s.draws,
        cso := none, lastRd := Vector.replicate 8 none, cpu := c, inputs := i,
        params := s.params, draws := s.draws + 1, env := es })

/-- The parameters of R7 are fixed: no run changes one. -/
def Obligations.NoRunChangesAParameter : Prop :=
  ∀ (n : Nat) (s t : State), Runs n s t → t.params = s.params

/-! ## Reset and the invariant -/

/-- After reset the masks are the OPEN parameters of R135, no override is in effect (decision D9) and LASTRD is
absent for all eight registers. -/
def Obligations.ResetLeavesMasksOpenAndNoOverride : Prop :=
  State.reset.irqen = Config.resetIrqen 0 ∧ State.reset.fiqen = Config.resetFiqen 0 ∧
  State.reset.rsten = Config.resetRsten 0 ∧ State.reset.dbgen = Config.resetDbgen 0 ∧
  State.reset.cso = none ∧ ∀ n : Fin 8, State.reset.lastRd[n] = none

/-- The invariant of the model holds at reset. -/
def Obligations.ResetMeetsTheMachineInvariant : Prop := State.reset.Inv

/-- Every step keeps the invariant, from every state that meets it: an override in effect selects only sizes whose
RAM is integrated (R103), and memory stays in its canonical form. -/
def Obligations.EveryStepKeepsTheMachineInvariant : Prop :=
  ∀ s t : State, s.Inv → step s = .next t → t.Inv

/-- Once an override is in effect, no step removes it but a reset, by an event or wired back (R106: "no transition ...
other than reset"). -/
def Obligations.OnlyResetRemovesTheOverride : Prop :=
  ∀ s t : State, s.cso ≠ none → s.noResetNext → s.resetAtProcessor = false → step s = .next t → t.cso ≠ none

/-! ## The enable registers -/

/-- The eight reads (R74, R78 to R92; decisions D2, D3): permitted and with its condition passed, the `MRC` of a Set
or of a Clear register completes and returns the pair's current mask, unpredictable reserved bits, nothing else. -/
def Obligations.EnableReadsReturnTheCurrentSetting : Prop :=
  ∀ (c : Cond) (r : Fin 15) (s : State), Passed c s → Permitted s →
    ReadsInto (.mrcIrqEnset c (regNo r)) 0 s.irqen r s ∧
    ReadsInto (.mrcFiqEnset c (regNo r)) 1 s.fiqen r s ∧
    ReadsInto (.mrcRstEnset c (regNo r)) 2 s.rsten r s ∧
    ReadsInto (.mrcDbgEnset c (regNo r)) 3 s.dbgen r s ∧
    ReadsInto (.mrcIrqEnclr c (regNo r)) 4 s.irqen r s ∧
    ReadsInto (.mrcFiqEnclr c (regNo r)) 5 s.fiqen r s ∧
    ReadsInto (.mrcRstEnclr c (regNo r)) 6 s.rsten r s ∧
    ReadsInto (.mrcDbgEnclr c (regNo r)) 7 s.dbgen r s

/-- The four writes of Set registers (R75, R77, R79 to R85; decisions D1, D4): permitted, admitted and with its
condition passed, the `MCR` completes; a function bit 1 sets its enable, 0 leaves it; only that mask and the pc
change. -/
def Obligations.SetWritesEnableTheNamedCounters : Prop :=
  ∀ (c : Cond) (r : Fin 15) (s : State), Passed c s → Permitted s →
    (Admitted s 0 s.cpu.x[r] → exec (.mcrIrqEnset c (regNo r)) s =
      .next { s with irqen := afterSet s.irqen s.cpu.x[r], cpu := cpuPast s }) ∧
    (Admitted s 1 s.cpu.x[r] → exec (.mcrFiqEnset c (regNo r)) s =
      .next { s with fiqen := afterSet s.fiqen s.cpu.x[r], cpu := cpuPast s }) ∧
    (Admitted s 2 s.cpu.x[r] → exec (.mcrRstEnset c (regNo r)) s =
      .next { s with rsten := afterSet s.rsten s.cpu.x[r], cpu := cpuPast s }) ∧
    (Admitted s 3 s.cpu.x[r] → exec (.mcrDbgEnset c (regNo r)) s =
      .next { s with dbgen := afterSet s.dbgen s.cpu.x[r], cpu := cpuPast s })

/-- The four writes of Clear registers (R76, R77, R87 to R93; decisions D1, D4): as the Set registers, but a function
bit 1 clears its enable. -/
def Obligations.ClearWritesDisableTheNamedCounters : Prop :=
  ∀ (c : Cond) (r : Fin 15) (s : State), Passed c s → Permitted s →
    (Admitted s 4 s.cpu.x[r] → exec (.mcrIrqEnclr c (regNo r)) s =
      .next { s with irqen := afterClr s.irqen s.cpu.x[r], cpu := cpuPast s }) ∧
    (Admitted s 5 s.cpu.x[r] → exec (.mcrFiqEnclr c (regNo r)) s =
      .next { s with fiqen := afterClr s.fiqen s.cpu.x[r], cpu := cpuPast s }) ∧
    (Admitted s 6 s.cpu.x[r] → exec (.mcrRstEnclr c (regNo r)) s =
      .next { s with rsten := afterClr s.rsten s.cpu.x[r], cpu := cpuPast s }) ∧
    (Admitted s 7 s.cpu.x[r] → exec (.mcrDbgEnclr c (regNo r)) s =
      .next { s with dbgen := afterClr s.dbgen s.cpu.x[r], cpu := cpuPast s })

/-- A permitted write of an enable register is refused exactly if its reserved bits are neither zero nor, under the
policy `zero_or_preserved`, those last read from that same register (R77, decision D4). -/
def Obligations.EnableWritesAreRefusedOnBadReservedBits : Prop :=
  ∀ (i : Instr) (reg : EnReg) (r : Fin 15) (s : State), i.writes? = some reg → i.rd = regNo r →
    Passed i.cond s → Permitted s →
    (exec i s = .refused .sbzpViolated ↔ ¬ Admitted s (regNumber reg) s.cpu.x[r])

/-- The laws of R95 (derived there from R75 and R76): writing nothing, idempotence, commutation, the OR of two
writes, the later of a Set and a Clear winning, clearing and setting all, and that all 16 masks are reached. -/
def Obligations.SetAndClearWritesObeyTheirLaws : Prop :=
  ∀ (e : EnableMask) (v w : Word),
    afterSet e 0#32 = e ∧ afterClr e 0#32 = e ∧
    writeSet e (functionBits v) = afterSet e v ∧ writeClr e (functionBits v) = afterClr e v ∧
    writeSet (writeSet e (functionBits v)) (functionBits w) = afterSet e (v ||| w) ∧
    writeSet (writeSet e (functionBits w)) (functionBits v) = afterSet e (v ||| w) ∧
    writeClr (writeClr e (functionBits v)) (functionBits w) = afterClr e (v ||| w) ∧
    writeClr (writeClr e (functionBits w)) (functionBits v) = afterClr e (v ||| w) ∧
    writeSet (writeSet e (functionBits v)) (functionBits v) = afterSet e v ∧
    writeClr (writeClr e (functionBits v)) (functionBits v) = afterClr e v ∧
    writeClr (writeSet e (functionBits v)) (functionBits v) = afterClr e v ∧
    writeSet (writeClr e (functionBits v)) (functionBits v) = afterSet e v ∧
    afterSet e (v &&& 0x80000007#32) = writeSet e (functionBits v) ∧
    afterClr e (v &&& 0x80000007#32) = writeClr e (functionBits v) ∧
    writeClr e (functionBits 0x80000007#32) = allOff ∧ writeSet e (functionBits 0x80000007#32) = allOn ∧
    (∀ target : EnableMask,
      writeSet (writeClr e (functionBits 0x80000007#32)) (functionBits (pk target)) = target)

/-- A read sees the effect of every earlier write of the same processor to the same mask (R55, R21; decisions D2,
D17): after any completed write of either register of a pair, a completed read of either returns the mask that
write left, which is what R75 and R76 make it: a written 1 acts, a written 0 does not (decision D1, log 13). -/
def Obligations.ReadsSeeEarlierWrites : Prop :=
  ∀ (i j : Instr) (reg q : EnReg) (r p : Fin 15) (s t u : State),
    i.writes? = some reg → j.reads? = some q → regKind q = regKind reg →
    i.rd = regNo r → j.rd = regNo p → Passed i.cond s → Passed j.cond t →
    exec i s = .next t → exec j t = .next u →
    Carries u.cpu.x[p] (match regPort reg with
      | .set => afterSet (s.mask (regKind reg)) s.cpu.x[r]
      | .clr => afterClr (s.mask (regKind reg)) s.cpu.x[r])

/-- Under `zero_or_preserved`, writing a register's just read value back to that same register is admitted whatever
its unpredictable bits are; to a Set register it leaves the mask of the register's kind as it was, to a Clear
register it clears that mask (R77, R140; decision D4; that the read returns that mask and a written 1 acts is D2
and D1, log 13). Of the other masks MasksAndOverrideAreIndependent speaks. -/
def Obligations.WritingBackAReadValueIsAdmitted : Prop :=
  ∀ (i j : Instr) (reg : EnReg) (r : Fin 15) (s : State),
    i.reads? = some reg → j.writes? = some reg → i.rd = regNo r → j.rd = regNo r →
    Passed i.cond s → Passed j.cond s → Permitted s → s.params.sbzpPolicy = .zeroOrPreserved →
    ∃ t u, exec i s = .next t ∧ exec j t = .next u ∧
      u.mask (regKind reg) = (match regPort reg with
        | .set => s.mask (regKind reg)
        | .clr => allOff)

/-! ## The Cache Size Override Register -/

/-- The write of `VAL_CSOR` (R101; decision D25 for what it overwrites): in Privileged mode, with bits [31:8] zero and
in both fields the code of a size whose RAM is integrated, it completes; the override in effect is exactly those
two sizes, and nothing else changes but the pc. -/
def Obligations.OverrideWriteSelectsTheTwoSizes : Prop :=
  ∀ (c : Cond) (r : Fin 15) (s : State) (d i : CacheSize), Passed c s → s.inputs.priv = true →
    s.cpu.x[r] = 0#24 ++ cacheCode d ++ cacheCode i →
    d ∈ s.params.csoAllowedD → i ∈ s.params.csoAllowedI →
    exec (.mcrCsor c (regNo r)) s = .next { s with cso := some ⟨d, i⟩, cpu := cpuPast s }

/-- The ways the write of `VAL_CSOR` stops in Privileged mode (R102, R103; decisions D22 to D24), in their order: a
reserved bit set; else a code not listed in either field; else a listed size not integrated. -/
def Obligations.OverrideWriteIsRefusedOnBadValues : Prop :=
  ∀ (c : Cond) (r : Fin 15) (s : State), Passed c s → s.inputs.priv = true →
    (s.cpu.x[r].extractLsb' 8 24 ≠ 0#24 → exec (.mcrCsor c (regNo r)) s = .refused .sbzViolated) ∧
    (s.cpu.x[r].extractLsb' 8 24 = 0#24 →
      (cacheSize? (s.cpu.x[r].extractLsb' 4 4) = none ∨ cacheSize? (s.cpu.x[r].extractLsb' 0 4) = none) →
      exec (.mcrCsor c (regNo r)) s = .refused .unlistedCacheSize) ∧
    (∀ d i : CacheSize, s.cpu.x[r] = 0#24 ++ cacheCode d ++ cacheCode i →
      (d ∉ s.params.csoAllowedD ∨ i ∉ s.params.csoAllowedI) →
      exec (.mcrCsor c (regNo r)) s = .refused .cacheSizeNotIntegrated)

/-- The read of the write-only register is refused in every mode, for every Rd, r15 too (R104, R124; decision D7). -/
def Obligations.OverrideReadIsRefusedInEveryMode : Prop :=
  ∀ (c : Cond) (d : Reg) (s : State), Passed c s → exec (.mrcCsor c d) s = .refused .readOfWriteOnly

/-- The cache size codes of Table 4.51 (R38), all sixteen: five select a size, a listed code with `k` low one bits
`4 * 2^k` kB; the other eleven select none, and a write of one, in either field, is refused. The size a code
selects is Table 4.51's (R38); the `4 * 2^k` is the spec's observation; the refusal and its name are decision D22
(R103, log 13), and like every write of the register it takes Privileged mode and zero bits [31:8]. -/
def Obligations.SizeCodesAreThoseOfTheTable : Prop :=
  (cacheSize? 0b0000#4).map cacheKilobytes = some 4 ∧ (cacheSize? 0b0001#4).map cacheKilobytes = some 8 ∧
  (cacheSize? 0b0011#4).map cacheKilobytes = some 16 ∧ (cacheSize? 0b0111#4).map cacheKilobytes = some 32 ∧
  (cacheSize? 0b1111#4).map cacheKilobytes = some 64 ∧
  (∀ k : Fin 5, (cacheSize? (BitVec.ofNat 4 (2 ^ k.val - 1))).map cacheKilobytes = some (4 * 2 ^ k.val)) ∧
  (∀ n ∈ [0b0010#4, 0b0100#4, 0b0101#4, 0b0110#4, 0b1000#4, 0b1001#4, 0b1010#4, 0b1011#4, 0b1100#4, 0b1101#4,
      0b1110#4],
    cacheSize? n = none ∧
    ∀ (c : Cond) (r : Fin 15) (s : State) (m : BitVec 4), Passed c s → s.inputs.priv = true →
      (s.cpu.x[r] = 0#24 ++ n ++ m ∨ s.cpu.x[r] = 0#24 ++ m ++ n) →
      exec (.mcrCsor c (regNo r)) s = .refused .unlistedCacheSize)

/-- While no override has been written the implemented sizes apply; while one is in effect its two sizes do,
whatever is implemented (R39, R105; decision D25). -/
def Obligations.OverrideReplacesTheImplementedSizes : Prop :=
  ∀ (s : State) (d i : CacheSize),
    (s.cso = none → s.dcacheSize d = d ∧ s.icacheSize i = i) ∧
    (∀ o : Override, s.cso = some o → s.dcacheSize d = o.d ∧ s.icacheSize i = o.i)

/-! ## Conditions, stops and privilege -/

/-- An access whose condition has failed does nothing but advance the pc: no check, no fault, no refusal, no effect,
whatever the instruction (R65; decision D20). -/
def Obligations.FailedConditionOnlyAdvancesThePc : Prop :=
  ∀ (i : Instr) (s : State), ¬ Passed i.cond s → exec i s = .next { s with cpu := cpuPast s }

/-- Rd = r15 is refused in all of the other seventeen accesses, in every mode and before the access check (R64, R124;
decisions D5, D19). -/
def Obligations.R15OperandIsRefused : Prop :=
  ∀ (i : Instr) (s : State), (i.isEnableAccess = true ∨ i.isCsoWrite = true) → i.rd = r15 →
    Passed i.cond s → exec i s = .refused .rdIsR15

/-- The complete list of causes of the one fault (R122, R73, R100, R124; decision D5): an access answers a fault
exactly if it is denied, and it is denied without a look at the value: an enable register when neither PRIV nor
USEREN_EN is true, the write of `VAL_CSOR` when PRIV is false. -/
def Obligations.OnlyDeniedAccessesRaiseUndefined : Prop :=
  ∀ (i : Instr) (s : State) (f : Fault), exec i s = .fault f ↔
    (f = .undefined ∧ Passed i.cond s ∧ i.rd ≠ r15 ∧
      ((i.isEnableAccess = true ∧ ¬ Permitted s) ∨ (i.isCsoWrite = true ∧ s.inputs.priv = false)))

/-- What code outside Privileged mode can reach (R128, R99, R100): without the User Enable permission no completed
instruction changes the block or a general register; with it none changes the cache size override. -/
def Obligations.UnprivilegedCodeReachesOnlyWhatIsPermitted : Prop :=
  ∀ (i : Instr) (s t : State), s.inputs.priv = false → exec i s = .next t →
    t.cso = s.cso ∧ (s.inputs.userEn = false → t.block = s.block ∧ t.cpu.x = s.cpu.x)

/-! ## What an instruction leaves alone -/

/-- Independence (R94, R107): a completed instruction changes a mask only if it is the write of one of that mask's two
registers, and the override only if it is the write of `VAL_CSOR`. -/
def Obligations.MasksAndOverrideAreIndependent : Prop :=
  ∀ (i : Instr) (s t : State), exec i s = .next t →
    (∀ k : Kind, (∀ reg, i.writes? = some reg → regKind reg ≠ k) → t.mask k = s.mask k) ∧
    (i.isCsoWrite = false → t.cso = s.cso)

/-- No other side effects (R96, R98, R107, R49): a completed instruction changes no input (OVF, mode, User Enable), no
parameter, no byte of memory, no general register but a read's Rd, no LASTRD entry but that of the register read;
the pc moves past the instruction. -/
def Obligations.AccessesHaveNoOtherSideEffects : Prop :=
  ∀ (i : Instr) (s t : State), exec i s = .next t →
    t.inputs = s.inputs ∧ t.params = s.params ∧ t.env = s.env ∧ t.cpu.pc = s.cpu.pc + 4#32 ∧
    (∀ a : Nat, Memory.read t.cpu.mem a = Memory.read s.cpu.mem a) ∧
    (∀ q : Fin 15, (i.reads? = none ∨ i.rd ≠ regNo q) → t.cpu.x[q] = s.cpu.x[q]) ∧
    (∀ n : Fin 8, (∀ reg, i.reads? = some reg → regNumber reg ≠ n) → t.lastRd[n] = s.lastRd[n])

/-- The override cannot be read back (R39, R47 c): no instruction's answer, next state apart from the override
itself, fault or refusal, depends on the override in effect before it. -/
def Obligations.OverrideCannotBeReadBack : Prop :=
  ∀ (i : Instr) (s : State) (a b : Option Override),
    mapNext (fun t => { t with cso := none }) (exec i { s with cso := a }) =
      mapNext (fun t => { t with cso := none }) (exec i { s with cso := b })

/-- The overflow inputs steer no access (R44, R96): running an instruction under other overflow inputs gives the same
answer with those inputs. -/
def Obligations.OverflowInputsDoNotSteerAccesses : Prop :=
  ∀ (i : Instr) (s : State) (o : Overflow),
    exec i { s with inputs := { s.inputs with ovf := o } } =
      mapNext (fun t => { t with inputs := { t.inputs with ovf := o } }) (exec i s)

/-- The routing of the four signals forces nothing on the processor but the reset of one that wires nVALRESET back
(R118, R83; decisions D12 to D14, log 11): under another routing with the same reset wire a step is the same step,
and so it is under any routing while nVALRESET is HIGH before the step and the answer's nVALRESET is HIGH before
its event lands. -/
def Obligations.RoutingFeedsBackOnlyThroughTheResetWire : Prop :=
  ∀ (s : State) (ρ : Routing),
    (ρ.resetToProcessor = s.params.routing.resetToProcessor ∨
      (s.nValReset = .high ∧ ∀ i t, exec i s = .next t → t.nValReset = .high)) →
    step { s with params := { s.params with routing := ρ } } =
      mapNext (fun t => { t with params := { t.params with routing := ρ } }) (step s)

/-! ## The request signals -/

/-- Polarity, the table of R117: three signals are LOW while their request is true and HIGH while it is false, the
fourth the other way round. -/
def Obligations.SignalLevelsFollowThePolarityTable : Prop :=
  ∀ s : State,
    (s.irqReq = true → s.nValIrq = .low) ∧ (s.irqReq = false → s.nValIrq = .high) ∧
    (s.fiqReq = true → s.nValFiq = .low) ∧ (s.fiqReq = false → s.nValFiq = .high) ∧
    (s.rstReq = true → s.nValReset = .low) ∧ (s.rstReq = false → s.nValReset = .high) ∧
    (s.dbgReq = true → s.valEdbgrq = .high) ∧ (s.dbgReq = false → s.valEdbgrq = .low)

/-- The four request expressions (R112 to R115; decision D10, conflict C3): a signal is asserted exactly while some
counter is both enabled in its own mask and overflowing. -/
def Obligations.SignalsAreAssertedExactlyOnEnabledOverflow : Prop :=
  ∀ s : State,
    (s.nValIrq = .low ↔ Meets s.irqen s.inputs.ovf) ∧ (s.nValIrq = .high ↔ ¬ Meets s.irqen s.inputs.ovf) ∧
    (s.nValFiq = .low ↔ Meets s.fiqen s.inputs.ovf) ∧ (s.nValFiq = .high ↔ ¬ Meets s.fiqen s.inputs.ovf) ∧
    (s.nValReset = .low ↔ Meets s.rsten s.inputs.ovf) ∧ (s.nValReset = .high ↔ ¬ Meets s.rsten s.inputs.ovf) ∧
    (s.valEdbgrq = .high ↔ Meets s.dbgen s.inputs.ovf) ∧ (s.valEdbgrq = .low ↔ ¬ Meets s.dbgen s.inputs.ovf)

/-- R22 to R25: in each of the four kinds an enable and the overflow of its counter assert the kind's signal, and the
mask is reached, by reads and by writes, through the Set and the Clear register of its pair, at their
coordinates. R22 to R25 say "reached"; that a read returns the mask and a one bit written sets or clears are the
decisions D2 and D1, the signals' shape is D10 and the places of the coordinates in the word are D18 (log 13). -/
def Obligations.EachMaskAssertsItsSignalAndIsReachedThroughItsPair : Prop :=
  (∀ s : State,
    (Meets s.irqen s.inputs.ovf → s.nValIrq = .low) ∧ (Meets s.fiqen s.inputs.ovf → s.nValFiq = .low) ∧
    (Meets s.rsten s.inputs.ovf → s.nValReset = .low) ∧ (Meets s.dbgen s.inputs.ovf → s.valEdbgrq = .high)) ∧
  ReachedThrough (fun s => s.irqen) 0#3 .mrcIrqEnset .mcrIrqEnset 4#3 .mrcIrqEnclr .mcrIrqEnclr ∧
  ReachedThrough (fun s => s.fiqen) 1#3 .mrcFiqEnset .mcrFiqEnset 5#3 .mrcFiqEnclr .mcrFiqEnclr ∧
  ReachedThrough (fun s => s.rsten) 2#3 .mrcRstEnset .mcrRstEnset 6#3 .mrcRstEnclr .mcrRstEnclr ∧
  ReachedThrough (fun s => s.dbgen) 3#3 .mrcDbgEnset .mcrDbgEnset 7#3 .mrcDbgEnclr .mcrDbgEnclr

/-- Enabling while the overflow condition already holds (R119): a completed write of a Set register with the bit of a
counter whose OVF input is true leaves the kind's signal asserted. -/
def Obligations.EnablingDuringOverflowAssertsAtOnce : Prop :=
  ∀ (i : Instr) (reg : EnReg) (r : Fin 15) (s t : State), i.writes? = some reg → regPort reg = .set →
    i.rd = regNo r → Passed i.cond s → exec i s = .next t →
    ((s.cpu.x[r].getLsbD 31 && s.inputs.ovf.c) = true ∨ (s.cpu.x[r].getLsbD 2 && s.inputs.ovf.p2) = true ∨
      (s.cpu.x[r].getLsbD 1 && s.inputs.ovf.p1) = true ∨ (s.cpu.x[r].getLsbD 0 && s.inputs.ovf.p0) = true) →
    (match regKind reg with
      | .irq => t.nValIrq = .low
      | .fiq => t.nValFiq = .low
      | .rst => t.nValReset = .low
      | .dbg => t.valEdbgrq = .high)

/-- Clearing all four enables of a kind (R120, R137; decision D10): the permitted write of `0x80000007` to its Clear
register completes whatever the mask was, and leaves the kind's signal deasserted for every OVF. -/
def Obligations.ClearingAllEnablesDeassertsForEveryOverflow : Prop :=
  ∀ (i : Instr) (reg : EnReg) (r : Fin 15) (s : State), i.writes? = some reg → regPort reg = .clr →
    i.rd = regNo r → Passed i.cond s → Permitted s → s.cpu.x[r] = 0x80000007#32 →
    ∃ t, exec i s = .next t ∧ t.mask (regKind reg) = allOff ∧ ∀ o : Overflow,
      (match regKind reg with
        | .irq => State.nValIrq { t with inputs := { t.inputs with ovf := o } } = .high
        | .fiq => State.nValFiq { t with inputs := { t.inputs with ovf := o } } = .high
        | .rst => State.nValReset { t with inputs := { t.inputs with ovf := o } } = .high
        | .dbg => State.valEdbgrq { t with inputs := { t.inputs with ovf := o } } = .low)

/-- The four signals are separate wires (R121; decision D27): any four levels occur together, in a state that differs
from any given one in its masks and overflow inputs alone. -/
def Obligations.AnySubsetOfSignalsMayBeAsserted : Prop :=
  ∀ (s : State) (a b c d : Level), ∃ (e f g h : EnableMask) (o : Overflow), ∃ t : State,
    t = { s with irqen := e, fiqen := f, rsten := g, dbgen := h, inputs := { s.inputs with ovf := o } } ∧
    t.nValIrq = a ∧ t.nValFiq = b ∧ t.nValReset = c ∧ t.valEdbgrq = d

/-- Where the platform passes the signals (R118; decisions D12 to D14): a request reaches its party, or the processor's
own input, exactly if it is routed there and true, and by the default routing it is routed nowhere. -/
def Obligations.RequestsReachOnlyTheirRoutedParties : Prop :=
  ∀ s : State,
    (s.atInterruptController.1 = true ↔ s.params.routing.irqToInterruptController = true ∧ s.nValIrq = .low) ∧
    (s.atInterruptController.2 = true ↔ s.params.routing.fiqToInterruptController = true ∧ s.nValFiq = .low) ∧
    (s.atResetController = true ↔ s.params.routing.resetToResetController = true ∧ s.nValReset = .low) ∧
    (s.atExternalDebugger = true ↔ s.params.routing.debugToExternalDebugger = true ∧ s.valEdbgrq = .high) ∧
    (s.atProcessor.1 = true ↔ s.params.routing.irqToProcessor = true ∧ s.nValIrq = .low) ∧
    (s.atProcessor.2.1 = true ↔ s.params.routing.fiqToProcessor = true ∧ s.nValFiq = .low) ∧
    (s.resetAtProcessor = true ↔ s.params.routing.resetToProcessor = true ∧ s.nValReset = .low) ∧
    (s.atProcessor.2.2 = true ↔ s.params.routing.debugToProcessor = true ∧ s.valEdbgrq = .high) ∧
    Params.standard.routing = ⟨false, false, false, false, false, false, false, false⟩

/-! ## nVALRESET wired back to the processor's reset -/

/-- Where nVALRESET is wired back to the processor's reset, the block returns to the state of R135 (D13, R136): the masks
are the OPEN values, drawn anew, no override is in effect (D9), LASTRD is absent. R136 leaves whether and when to
the platform. THE MODEL'S CHOICE (log 15, DESIGN CHOICE, unsafe): the reset is a step of its own that runs no
instruction, it is taken in every state in which nVALRESET is asserted, and the placed bytes of memory are kept. What
else the processor holds is free. Then the next event of the model's own queue lands (log 3). -/
def Obligations.WiredResetRequestResetsTheBlock : Prop :=
  ∀ s : State, s.params.routing.resetToProcessor = true → s.nValReset = .low →
    ∃ t : State, step s = .next t.settle ∧ t.irqen = Config.resetIrqen s.draws ∧
      t.fiqen = Config.resetFiqen s.draws ∧ t.rsten = Config.resetRsten s.draws ∧
      t.dbgen = Config.resetDbgen s.draws ∧ t.cso = none ∧ (∀ n : Fin 8, t.lastRd[n] = none) ∧
      t.params = s.params ∧ t.env = s.env ∧
      (∀ a : Nat, Memory.read t.cpu.mem a = Memory.read s.cpu.mem a)

/-- The corner case of R83 (decisions D1, D4, D10, D13): where nVALRESET is wired back, a step whose instruction is a
completed write of `VAL_RST_ENSET` with the bit of a counter whose OVF input is true leaves nVALRESET asserted, the
next event is the reset, and after it the masks are again unspecified (R43). THE MODEL'S CHOICE (log 15 on the queue of
log 3, both DESIGN CHOICE): the reset is the very next step, a step of its own, and no event of the queue lands
before it. -/
def Obligations.EnablingAWiredResetRequestMakesTheNextEventAReset : Prop :=
  ∀ (c : Cond) (r : Fin 15) (s : State), s.resetAtProcessor = false →
    s.params.routing.resetToProcessor = true → Passed c s → Permitted s → Admitted s 2 s.cpu.x[r] → c ≠ 15#4 →
    (∀ k : Fin 4, Memory.read s.cpu.mem (s.cpu.pc + BitVec.ofNat 32 k).toNat =
      (encodeBytes s.params.byteOrder (.mcrRstEnset c (regNo r)))[k]?) →
    ((s.cpu.x[r].getLsbD 31 && s.inputs.ovf.c) = true ∨ (s.cpu.x[r].getLsbD 2 && s.inputs.ovf.p2) = true ∨
      (s.cpu.x[r].getLsbD 1 && s.inputs.ovf.p1) = true ∨ (s.cpu.x[r].getLsbD 0 && s.inputs.ovf.p0) = true) →
    ∃ t u : State, step s = .next t ∧ t.rsten = afterSet s.rsten s.cpu.x[r] ∧ t.nValReset = .low ∧
      t.env = s.env ∧ step t = .next u.settle ∧ u.rsten = Config.resetRsten s.draws ∧
      u.irqen = Config.resetIrqen s.draws ∧ u.fiqen = Config.resetFiqen s.draws ∧
      u.dbgen = Config.resetDbgen s.draws ∧ u.cso = none

/-! ## Masks, override and memory apart -/

/-- Of R22 to R25 the part about writes: in each of the four kinds an enable and an overflow of its counter assert the
kind's signal, at the level of R117 (decision D10); and writes of the register numbered n change a mask, in some
state, exactly if n is one of the two numbers R22 to R25 name for it. The numbers are the model's `regNumber`, R11's
last coordinate; the coordinates in the encoded word, and reads, are in
EachMaskAssertsItsSignalAndIsReachedThroughItsPair. -/
def Obligations.EachMaskIsReachedThroughExactlyItsTwoRegisters : Prop :=
  (∀ s : State,
    (Meets s.irqen s.inputs.ovf → s.nValIrq = .low) ∧ (Meets s.fiqen s.inputs.ovf → s.nValFiq = .low) ∧
    (Meets s.rsten s.inputs.ovf → s.nValReset = .low) ∧ (Meets s.dbgen s.inputs.ovf → s.valEdbgrq = .high)) ∧
  ∀ (k : Kind) (reg : EnReg),
    (∃ (i : Instr) (s t : State), i.writes? = some reg ∧ exec i s = .next t ∧ t.mask k ≠ s.mask k) ↔
      (regNumber reg = (pairNumbers k).1 ∨ regNumber reg = (pairNumbers k).2)

/-- The items of R107: a completed write of `VAL_CSOR` changes no mask, no OVF input and no output signal, writes no flag
(the model's flags are the conditions that hold on them, log 5, DEDUCED) and no general register, makes no memory
access (memory is unchanged, and under other memory the answer is the same with that memory) and is no branch (the
pc moves past the instruction, by 4: decision D21, R41, log 13). No completed access to an enable register changes
the override. -/
def Obligations.OverrideWriteIsIndependent : Prop :=
  (∀ (c : Cond) (d : Reg) (s t : State), exec (.mcrCsor c d) s = .next t →
    t.irqen = s.irqen ∧ t.fiqen = s.fiqen ∧ t.rsten = s.rsten ∧ t.dbgen = s.dbgen ∧
    t.inputs.ovf = s.inputs.ovf ∧ t.nValIrq = s.nValIrq ∧ t.nValFiq = s.nValFiq ∧
    t.nValReset = s.nValReset ∧ t.valEdbgrq = s.valEdbgrq ∧ t.inputs.condsHeld = s.inputs.condsHeld ∧
    t.cpu.x = s.cpu.x ∧ t.cpu.pc = s.cpu.pc + 4#32 ∧
    (∀ a : Nat, Memory.read t.cpu.mem a = Memory.read s.cpu.mem a)) ∧
  (∀ (c : Cond) (d : Reg) (s : State) (m : Memory),
    exec (.mcrCsor c d) { s with cpu := { s.cpu with mem := m } } =
      mapNext (fun t => { t with cpu := { t.cpu with mem := m } }) (exec (.mcrCsor c d) s)) ∧
  (∀ (i : Instr) (s t : State), i.isEnableAccess = true → exec i s = .next t → t.cso = s.cso)

/-- R49: the block performs no memory read (under other bytes in memory, and another byte order, every instruction gives
the same answer with those) and no memory write (every byte reads as before). An access is `exec`; the fetch of its
word is the processor's (R50). -/
def Obligations.AccessesPerformNoMemoryAccess : Prop :=
  (∀ (i : Instr) (s t : State), exec i s = .next t →
    ∀ a : Nat, Memory.read t.cpu.mem a = Memory.read s.cpu.mem a) ∧
  (∀ (i : Instr) (s : State) (m : Memory) (o : ByteOrder),
    exec i { s with cpu := { s.cpu with mem := m }, params := { s.params with byteOrder := o } } =
      mapNext (fun t => { t with cpu := { t.cpu with mem := m }, params := { t.params with byteOrder := o } })
        (exec i s))

/-- Derived from R94: a completed write through either register of a pair changes nothing but that pair's mask and the
pc (it need not change the mask: a write of zeros changes none); no access to an enable register changes the override;
and whatever the four masks are together, so that a counter may be enabled in several, its overflow makes the request
of each kind it is enabled in true. Decisions of the spec (log 13): that both registers of a pair reach one mask is
D2, the request expressions of R112 to R115 at every OVF are D10. The pairing is the model's `regKind` (R11, R22 to
R25); which mask each register changes is in EachMaskIsReachedThroughExactlyItsTwoRegisters. -/
def Obligations.TheFourMasksAreSeparate : Prop :=
  (∀ (i : Instr) (reg : EnReg) (s t : State), i.writes? = some reg → exec i s = .next t →
    (∀ k : Kind, k ≠ regKind reg → t.mask k = s.mask k) ∧ t.cso = s.cso ∧ t.lastRd = s.lastRd ∧
    t.cpu.x = s.cpu.x ∧ t.cpu.mem = s.cpu.mem ∧ t.inputs = s.inputs ∧ t.params = s.params ∧
    t.draws = s.draws ∧ t.env = s.env) ∧
  (∀ (i : Instr) (s t : State), i.isEnableAccess = true → exec i s = .next t → t.cso = s.cso) ∧
  ∀ (s : State) (e f g h : EnableMask) (o : Overflow) (t : State),
    t = { s with irqen := e, fiqen := f, rsten := g, dbgen := h, inputs := { s.inputs with ovf := o } } →
    (Meets e o → t.irqReq = true) ∧ (Meets f o → t.fiqReq = true) ∧
    (Meets g o → t.rstReq = true) ∧ (Meets h o → t.dbgReq = true)
end

