-- ==== Sys2Proof/Laws/Memory.lean ====
section
/-! SUPPORT. The laws of instruction memory: a read after a write, and that a write keeps the canonical form. -/

namespace Sys2Proof.Machine

@[simp] theorem Memory.read_nil (a : Nat) : Memory.read [] a = none := rfl

@[simp] theorem Memory.read_write_same (m : Memory) (a : Nat) (v : Byte) :
    Memory.read (Memory.write m a v) a = some v := by
  induction m with
  | nil => simp [Memory.write, Memory.read]
  | cons c m ih =>
    obtain ⟨b, w⟩ := c
    simp only [Memory.write]
    split
    · simp [Memory.read]
    · split
      · simp [Memory.read]
      · next h => simp [Memory.read, h, ih]

theorem Memory.read_write_other (m : Memory) (a q : Nat) (v : Byte) (h : q ≠ a) :
    Memory.read (Memory.write m a v) q = Memory.read m q := by
  induction m with
  | nil => simp [Memory.write, Memory.read, h]
  | cons c m ih =>
    obtain ⟨b, w⟩ := c
    simp only [Memory.write]
    split
    · simp [Memory.read, h]
    · split
      · next e => subst e; simp [Memory.read, h]
      · simp [Memory.read, ih]

theorem Memory.risesFrom_write (m : Memory) (lo a : Nat) (v : Byte) (h : Memory.risesFrom lo m = true)
    (ha : lo ≤ a) : Memory.risesFrom lo (Memory.write m a v) = true := by
  induction m generalizing lo with
  | nil => simp [Memory.write, Memory.risesFrom, ha]
  | cons c m ih =>
    obtain ⟨b, w⟩ := c
    simp only [Memory.risesFrom, Bool.and_eq_true, decide_eq_true_eq] at h
    simp only [Memory.write]
    split
    · next hab => simp [Memory.risesFrom, ha, h.2]; omega
    · split
      · next e => subst e; simp [Memory.risesFrom, ha, h.2]
      · next h1 h2 => simp [Memory.risesFrom, h.1, ih (b + 1) h.2 (by omega)]

theorem Memory.bounded_write (m : Memory) (n a : Nat) (v : Byte)
    (h : (m.all fun c => decide (c.1 < n)) = true) (ha : a < n) :
    ((Memory.write m a v).all fun c => decide (c.1 < n)) = true := by
  induction m with
  | nil => simp [Memory.write, ha]
  | cons c m ih =>
    obtain ⟨b, w⟩ := c
    simp only [List.all_cons, Bool.and_eq_true, decide_eq_true_eq] at h
    simp only [Memory.write]
    split
    · simp only [List.all_cons, Bool.and_eq_true, decide_eq_true_eq]; exact ⟨ha, h.1, h.2⟩
    · split
      · simp only [List.all_cons, Bool.and_eq_true, decide_eq_true_eq]; exact ⟨ha, h.2⟩
      · simp only [List.all_cons, Bool.and_eq_true, decide_eq_true_eq]; exact ⟨h.1, ih h.2⟩

/-- Placing a byte inside the address space keeps the canonical form. -/
theorem Memory.wf_write (m : Memory) (a : Nat) (v : Byte) (h : Memory.wf m = true) (ha : a < 2 ^ 32) :
    Memory.wf (Memory.write m a v) = true := by
  simp only [Memory.wf, Bool.and_eq_true] at h ⊢
  exact ⟨Memory.risesFrom_write m 0 a v h.1 (by omega), Memory.bounded_write m _ a v h.2 ha⟩

theorem fetchAddr_lt (pc : Word) (k : Nat) : fetchAddr pc k < 2 ^ 32 := BitVec.isLt _

theorem wf_placeBytes (pc : Word) (k : Nat) (bs : List Byte) (m : Memory) (h : Memory.wf m = true) :
    Memory.wf (placeBytes pc k bs m) = true := by
  induction bs generalizing k m with
  | nil => exact h
  | cons b bs ih => exact ih _ _ (Memory.wf_write _ _ _ h (fetchAddr_lt _ _))

/-- Placing an instruction word keeps the canonical form. -/
theorem wf_placeWord (s : State) (w : Word) (h : Memory.wf s.cpu.mem = true) :
    Memory.wf (s.placeWord w).cpu.mem = true :=
  wf_placeBytes _ _ _ _ h

/-- The bytes of one instruction lie at four different addresses, at the top of the address space too. -/
theorem fetchAddr_injective (pc : Word) {j k : Nat} (hj : j < 4) (hk : k < 4)
    (h : fetchAddr pc j = fetchAddr pc k) : j = k := by
  simp only [fetchAddr, BitVec.toNat_add, BitVec.toNat_ofNat] at h
  have := pc.isLt
  omega

end Sys2Proof.Machine
end

