-- ==== Sys2Proof/Laws/PerInstr.lean ====
section
/-! SUPPORT. The families of statements made per instruction: FixedBits, what the word of an instruction holds. -/

namespace Sys2Proof.Laws

/-- The word of an instruction holds its row's match value in the bits of the row's mask (30_encoding.md R63), and
its two fields whole. -/
def FixedBits.Statement (i : Instr) : Prop :=
  encode i &&& 0x0FFF0FFF#32 = i.rowMatch ∧ (encode i).extractLsb' 28 4 = i.cond ∧
    (encode i).extractLsb' 12 4 = i.rd

theorem FixedBits.mrcIrqEnset (c : Cond) (d : Reg) : FixedBits.Statement (.mrcIrqEnset c d) := by
  revert c d; unfold FixedBits.Statement; decide

theorem FixedBits.mcrIrqEnset (c : Cond) (d : Reg) : FixedBits.Statement (.mcrIrqEnset c d) := by
  revert c d; unfold FixedBits.Statement; decide

theorem FixedBits.mrcFiqEnset (c : Cond) (d : Reg) : FixedBits.Statement (.mrcFiqEnset c d) := by
  revert c d; unfold FixedBits.Statement; decide

theorem FixedBits.mcrFiqEnset (c : Cond) (d : Reg) : FixedBits.Statement (.mcrFiqEnset c d) := by
  revert c d; unfold FixedBits.Statement; decide

theorem FixedBits.mrcRstEnset (c : Cond) (d : Reg) : FixedBits.Statement (.mrcRstEnset c d) := by
  revert c d; unfold FixedBits.Statement; decide

theorem FixedBits.mcrRstEnset (c : Cond) (d : Reg) : FixedBits.Statement (.mcrRstEnset c d) := by
  revert c d; unfold FixedBits.Statement; decide

theorem FixedBits.mrcDbgEnset (c : Cond) (d : Reg) : FixedBits.Statement (.mrcDbgEnset c d) := by
  revert c d; unfold FixedBits.Statement; decide

theorem FixedBits.mcrDbgEnset (c : Cond) (d : Reg) : FixedBits.Statement (.mcrDbgEnset c d) := by
  revert c d; unfold FixedBits.Statement; decide

theorem FixedBits.mrcIrqEnclr (c : Cond) (d : Reg) : FixedBits.Statement (.mrcIrqEnclr c d) := by
  revert c d; unfold FixedBits.Statement; decide

theorem FixedBits.mcrIrqEnclr (c : Cond) (d : Reg) : FixedBits.Statement (.mcrIrqEnclr c d) := by
  revert c d; unfold FixedBits.Statement; decide

theorem FixedBits.mrcFiqEnclr (c : Cond) (d : Reg) : FixedBits.Statement (.mrcFiqEnclr c d) := by
  revert c d; unfold FixedBits.Statement; decide

theorem FixedBits.mcrFiqEnclr (c : Cond) (d : Reg) : FixedBits.Statement (.mcrFiqEnclr c d) := by
  revert c d; unfold FixedBits.Statement; decide

theorem FixedBits.mrcRstEnclr (c : Cond) (d : Reg) : FixedBits.Statement (.mrcRstEnclr c d) := by
  revert c d; unfold FixedBits.Statement; decide

theorem FixedBits.mcrRstEnclr (c : Cond) (d : Reg) : FixedBits.Statement (.mcrRstEnclr c d) := by
  revert c d; unfold FixedBits.Statement; decide

theorem FixedBits.mrcDbgEnclr (c : Cond) (d : Reg) : FixedBits.Statement (.mrcDbgEnclr c d) := by
  revert c d; unfold FixedBits.Statement; decide

theorem FixedBits.mcrDbgEnclr (c : Cond) (d : Reg) : FixedBits.Statement (.mcrDbgEnclr c d) := by
  revert c d; unfold FixedBits.Statement; decide

theorem FixedBits.mcrCsor (c : Cond) (d : Reg) : FixedBits.Statement (.mcrCsor c d) := by
  revert c d; unfold FixedBits.Statement; decide

theorem FixedBits.mrcCsor (c : Cond) (d : Reg) : FixedBits.Statement (.mrcCsor c d) := by
  revert c d; unfold FixedBits.Statement; decide

end Sys2Proof.Laws
end

