-- ==== Sys2Proof/Laws/Encoding.lean ====
section
/-! SUPPORT. The laws of words and bytes: a word is its fields, bytes read back as their word, and the word placed at
the pc is the word fetched. -/

namespace Sys2Proof

/-- A word is the fields of 30_encoding.md R60 in their places, the fixed bits together. -/
theorem word_eq_fields (w : Word) : w = (w.extractLsb' 28 4).setWidth 32 <<< 28 |||
    ((w &&& 0x0FEF0F10#32) ||| (BitVec.ofBool (w.getLsbD 20)).setWidth 32 <<< 20 |||
      (w.extractLsb' 5 3).setWidth 32 <<< 5 ||| (w.extractLsb' 0 4).setWidth 32) |||
    (w.extractLsb' 12 4).setWidth 32 <<< 12 := by
  have hm : ∀ k, k < 32 → (0x0FEF0F10#32).getLsbD k = (decide (k = 4) ||
      (decide (8 ≤ k) && decide (k < 12)) || (decide (16 ≤ k) && decide (k < 20)) ||
      (decide (21 ≤ k) && decide (k < 28))) := by decide
  apply BitVec.eq_of_getLsbD_eq
  intro i hi
  simp only [BitVec.getLsbD_or, BitVec.getLsbD_and, BitVec.getLsbD_shiftLeft, BitVec.getLsbD_setWidth,
    BitVec.getLsbD_extractLsb', hm i hi]
  interval_cases i <;> simp

/-- The instruction of an enable register has the match value of its row (R63): opc2 and L in their places. -/
theorem rowMatch_enable (o : BitVec 3) (l : Bool) (c : Cond) (d : Reg) :
    (if l then Instr.readOf (.ofOpc2 o) c d else .writeOf (.ofOpc2 o) c d).rowMatch =
      0x0E0F0F10#32 ||| (BitVec.ofBool l).setWidth 32 <<< 20 ||| o.setWidth 32 <<< 5 ||| (1#4).setWidth 32 := by
  have all : ∀ o : BitVec 3, o = 0#3 ∨ o = 1#3 ∨ o = 2#3 ∨ o = 3#3 ∨ o = 4#3 ∨ o = 5#3 ∨ o = 6#3 ∨ o = 7#3 := by
    decide
  rcases all o with rfl | rfl | rfl | rfl | rfl | rfl | rfl | rfl <;> cases l <;> rfl

/-- Four bytes of a word read back as the word, in either order. -/
theorem bytesOfWord_cases (o : ByteOrder) (w : Word) :
    ∃ b0 b1 b2 b3, bytesOfWord o w = [b0, b1, b2, b3] ∧ wordOfBytes o b0 b1 b2 b3 = w := by
  cases o <;>
  · refine ⟨_, _, _, _, rfl, ?_⟩
    apply BitVec.eq_of_getLsbD_eq
    intro i hi
    simp only [wordOfBytes, BitVec.getLsbD_append, BitVec.getLsbD_extractLsb']
    interval_cases i <;> simp

/-- Decoding the bytes of a word is decoding the word. -/
theorem decodeBytes_bytesOfWord (o : ByteOrder) (w : Word) (rest : List Byte) :
    decodeBytes o (bytesOfWord o w ++ rest) = (decodeWord w).map (fun i => (i, rest)) := by
  obtain ⟨b0, b1, b2, b3, hb, hw⟩ := bytesOfWord_cases o w
  simp only [hb, List.cons_append, List.nil_append, decodeBytes, hw]
  cases decodeWord w <;> rfl

namespace Machine

/-- The bytes of a word lying at the pc are what is fetched. -/
theorem fetch_of_bytes {s : State} {w : Word}
    (h : ∀ k : Fin 4, Memory.read s.cpu.mem (fetchAddr s.cpu.pc k) = (bytesOfWord s.params.byteOrder w)[k]?) :
    s.fetch = some (bytesOfWord s.params.byteOrder w) := by
  obtain ⟨b0, b1, b2, b3, hb, -⟩ := bytesOfWord_cases s.params.byteOrder w
  rw [hb] at h ⊢
  have h0 : Memory.read s.cpu.mem (fetchAddr s.cpu.pc 0) = some b0 := h 0
  have h1 : Memory.read s.cpu.mem (fetchAddr s.cpu.pc 1) = some b1 := h 1
  have h2 : Memory.read s.cpu.mem (fetchAddr s.cpu.pc 2) = some b2 := h 2
  have h3 : Memory.read s.cpu.mem (fetchAddr s.cpu.pc 3) = some b3 := h 3
  simp [State.fetch, h0, h1, h2, h3]

/-- The word placed at the pc is the word fetched, from every state, at the top of memory too. -/
theorem fetch_placeWord (s : State) (w : Word) :
    (s.placeWord w).fetch = some (bytesOfWord s.params.byteOrder w) := by
  refine fetch_of_bytes (s := s.placeWord w) fun k => ?_
  obtain ⟨b0, b1, b2, b3, hb, -⟩ := bytesOfWord_cases s.params.byteOrder w
  have ne : ∀ j k : Nat, j < 4 → k < 4 → j ≠ k → fetchAddr s.cpu.pc j ≠ fetchAddr s.cpu.pc k :=
    fun j k hj hk hne he => hne (fetchAddr_injective _ hj hk he)
  have hm : (s.placeWord w).cpu.mem = Memory.write (Memory.write (Memory.write (Memory.write s.cpu.mem
      (fetchAddr s.cpu.pc 0) b0) (fetchAddr s.cpu.pc 1) b1) (fetchAddr s.cpu.pc 2) b2)
      (fetchAddr s.cpu.pc 3) b3 := by simp only [State.placeWord, hb, placeBytes]
  have hp : (s.placeWord w).params = s.params := rfl
  have hc : (s.placeWord w).cpu.pc = s.cpu.pc := rfl
  rw [hm, hp, hb, hc]
  match k with
  | 0 =>
    show Memory.read _ (fetchAddr s.cpu.pc 0) = some b0
    rw [Memory.read_write_other _ _ _ _ (ne 0 3 (by omega) (by omega) (by omega)),
      Memory.read_write_other _ _ _ _ (ne 0 2 (by omega) (by omega) (by omega)),
      Memory.read_write_other _ _ _ _ (ne 0 1 (by omega) (by omega) (by omega)), Memory.read_write_same]
  | 1 =>
    show Memory.read _ (fetchAddr s.cpu.pc 1) = some b1
    rw [Memory.read_write_other _ _ _ _ (ne 1 3 (by omega) (by omega) (by omega)),
      Memory.read_write_other _ _ _ _ (ne 1 2 (by omega) (by omega) (by omega)), Memory.read_write_same]
  | 2 =>
    show Memory.read _ (fetchAddr s.cpu.pc 2) = some b2
    rw [Memory.read_write_other _ _ _ _ (ne 2 3 (by omega) (by omega) (by omega)), Memory.read_write_same]
  | 3 =>
    show Memory.read _ (fetchAddr s.cpu.pc 3) = some b3
    rw [Memory.read_write_same]

end Machine

end Sys2Proof
end

