-- ==== Sys2Proof/Laws/State.lean ====
section
/-! SUPPORT. One lemma per field per update of State, each true by definition, and what the accessors of a mask,
of LASTRD and of a general register read after an update. -/

namespace Sys2Proof.Machine

/-! ## `setX` -/

@[simp] theorem setX_irqen (s : State) (r : Fin 15) (v : Word) : (s.setX r v).irqen = s.irqen := rfl
@[simp] theorem setX_fiqen (s : State) (r : Fin 15) (v : Word) : (s.setX r v).fiqen = s.fiqen := rfl
@[simp] theorem setX_rsten (s : State) (r : Fin 15) (v : Word) : (s.setX r v).rsten = s.rsten := rfl
@[simp] theorem setX_dbgen (s : State) (r : Fin 15) (v : Word) : (s.setX r v).dbgen = s.dbgen := rfl
@[simp] theorem setX_cso (s : State) (r : Fin 15) (v : Word) : (s.setX r v).cso = s.cso := rfl
@[simp] theorem setX_lastRd (s : State) (r : Fin 15) (v : Word) : (s.setX r v).lastRd = s.lastRd := rfl
@[simp] theorem setX_inputs (s : State) (r : Fin 15) (v : Word) : (s.setX r v).inputs = s.inputs := rfl
@[simp] theorem setX_params (s : State) (r : Fin 15) (v : Word) : (s.setX r v).params = s.params := rfl
@[simp] theorem setX_draws (s : State) (r : Fin 15) (v : Word) : (s.setX r v).draws = s.draws := rfl
@[simp] theorem setX_env (s : State) (r : Fin 15) (v : Word) : (s.setX r v).env = s.env := rfl
@[simp] theorem setX_x (s : State) (r : Fin 15) (v : Word) : (s.setX r v).cpu.x = s.cpu.x.set r v := rfl
@[simp] theorem setX_pc (s : State) (r : Fin 15) (v : Word) : (s.setX r v).cpu.pc = s.cpu.pc := rfl
@[simp] theorem setX_mem (s : State) (r : Fin 15) (v : Word) : (s.setX r v).cpu.mem = s.cpu.mem := rfl
@[simp] theorem setX_mask (s : State) (r : Fin 15) (v : Word) (k : Kind) : (s.setX r v).mask k = s.mask k := by cases k <;> rfl
@[simp] theorem setX_block (s : State) (r : Fin 15) (v : Word) : (s.setX r v).block = s.block := rfl

@[simp] theorem getX_setX_same (s : State) (r : Fin 15) (v : Word) : (s.setX r v).getX r = v := by
  simp [State.getX]

theorem getX_setX_other (s : State) (r q : Fin 15) (v : Word) (h : q ≠ r) :
    (s.setX r v).getX q = s.getX q := by
  have : r.val ≠ q.val := fun e => h (Fin.ext e.symm)
  simp [State.getX, this]

/-! ## `advance` -/

@[simp] theorem advance_irqen (s : State) : s.advance.irqen = s.irqen := rfl
@[simp] theorem advance_fiqen (s : State) : s.advance.fiqen = s.fiqen := rfl
@[simp] theorem advance_rsten (s : State) : s.advance.rsten = s.rsten := rfl
@[simp] theorem advance_dbgen (s : State) : s.advance.dbgen = s.dbgen := rfl
@[simp] theorem advance_cso (s : State) : s.advance.cso = s.cso := rfl
@[simp] theorem advance_lastRd (s : State) : s.advance.lastRd = s.lastRd := rfl
@[simp] theorem advance_inputs (s : State) : s.advance.inputs = s.inputs := rfl
@[simp] theorem advance_params (s : State) : s.advance.params = s.params := rfl
@[simp] theorem advance_draws (s : State) : s.advance.draws = s.draws := rfl
@[simp] theorem advance_env (s : State) : s.advance.env = s.env := rfl
@[simp] theorem advance_x (s : State) : s.advance.cpu.x = s.cpu.x := rfl
@[simp] theorem advance_pc (s : State) : s.advance.cpu.pc = s.cpu.pc + 4#32 := rfl
@[simp] theorem advance_mem (s : State) : s.advance.cpu.mem = s.cpu.mem := rfl
@[simp] theorem advance_getX (s : State) (r : Fin 15) : s.advance.getX r = s.getX r := rfl
@[simp] theorem advance_mask (s : State) (k : Kind) : s.advance.mask k = s.mask k := by cases k <;> rfl
@[simp] theorem advance_lastRead (s : State) (reg : EnReg) : s.advance.lastRead reg = s.lastRead reg := rfl
@[simp] theorem advance_block (s : State) : s.advance.block = s.block := rfl

/-! ## `setMask` -/

@[simp] theorem setMask_cso (s : State) (k : Kind) (e : EnableMask) : (s.setMask k e).cso = s.cso := by cases k <;> rfl
@[simp] theorem setMask_lastRd (s : State) (k : Kind) (e : EnableMask) : (s.setMask k e).lastRd = s.lastRd := by cases k <;> rfl
@[simp] theorem setMask_cpu (s : State) (k : Kind) (e : EnableMask) : (s.setMask k e).cpu = s.cpu := by cases k <;> rfl
@[simp] theorem setMask_inputs (s : State) (k : Kind) (e : EnableMask) : (s.setMask k e).inputs = s.inputs := by cases k <;> rfl
@[simp] theorem setMask_params (s : State) (k : Kind) (e : EnableMask) : (s.setMask k e).params = s.params := by cases k <;> rfl
@[simp] theorem setMask_draws (s : State) (k : Kind) (e : EnableMask) : (s.setMask k e).draws = s.draws := by cases k <;> rfl
@[simp] theorem setMask_env (s : State) (k : Kind) (e : EnableMask) : (s.setMask k e).env = s.env := by cases k <;> rfl
@[simp] theorem setMask_irq_irqen (s : State) (e : EnableMask) : (s.setMask .irq e).irqen = e := rfl
@[simp] theorem setMask_irq_fiqen (s : State) (e : EnableMask) : (s.setMask .irq e).fiqen = s.fiqen := rfl
@[simp] theorem setMask_irq_rsten (s : State) (e : EnableMask) : (s.setMask .irq e).rsten = s.rsten := rfl
@[simp] theorem setMask_irq_dbgen (s : State) (e : EnableMask) : (s.setMask .irq e).dbgen = s.dbgen := rfl
@[simp] theorem setMask_fiq_irqen (s : State) (e : EnableMask) : (s.setMask .fiq e).irqen = s.irqen := rfl
@[simp] theorem setMask_fiq_fiqen (s : State) (e : EnableMask) : (s.setMask .fiq e).fiqen = e := rfl
@[simp] theorem setMask_fiq_rsten (s : State) (e : EnableMask) : (s.setMask .fiq e).rsten = s.rsten := rfl
@[simp] theorem setMask_fiq_dbgen (s : State) (e : EnableMask) : (s.setMask .fiq e).dbgen = s.dbgen := rfl
@[simp] theorem setMask_rst_irqen (s : State) (e : EnableMask) : (s.setMask .rst e).irqen = s.irqen := rfl
@[simp] theorem setMask_rst_fiqen (s : State) (e : EnableMask) : (s.setMask .rst e).fiqen = s.fiqen := rfl
@[simp] theorem setMask_rst_rsten (s : State) (e : EnableMask) : (s.setMask .rst e).rsten = e := rfl
@[simp] theorem setMask_rst_dbgen (s : State) (e : EnableMask) : (s.setMask .rst e).dbgen = s.dbgen := rfl
@[simp] theorem setMask_dbg_irqen (s : State) (e : EnableMask) : (s.setMask .dbg e).irqen = s.irqen := rfl
@[simp] theorem setMask_dbg_fiqen (s : State) (e : EnableMask) : (s.setMask .dbg e).fiqen = s.fiqen := rfl
@[simp] theorem setMask_dbg_rsten (s : State) (e : EnableMask) : (s.setMask .dbg e).rsten = s.rsten := rfl
@[simp] theorem setMask_dbg_dbgen (s : State) (e : EnableMask) : (s.setMask .dbg e).dbgen = e := rfl
@[simp] theorem mask_setMask_same (s : State) (k : Kind) (e : EnableMask) : (s.setMask k e).mask k = e := by cases k <;> rfl

theorem mask_setMask_other (s : State) (k j : Kind) (e : EnableMask) (h : j ≠ k) :
    (s.setMask k e).mask j = s.mask j := by
  cases k <;> cases j <;> first | rfl | exact absurd rfl h

@[simp] theorem setMask_lastRead (s : State) (k : Kind) (e : EnableMask) (reg : EnReg) : (s.setMask k e).lastRead reg = s.lastRead reg := by cases k <;> rfl
@[simp] theorem setMask_getX (s : State) (k : Kind) (e : EnableMask) (r : Fin 15) : (s.setMask k e).getX r = s.getX r := by cases k <;> rfl

/-! ## `setLastRead` -/

@[simp] theorem setLastRead_irqen (s : State) (reg : EnReg) (u : BitVec 28) : (s.setLastRead reg u).irqen = s.irqen := rfl
@[simp] theorem setLastRead_fiqen (s : State) (reg : EnReg) (u : BitVec 28) : (s.setLastRead reg u).fiqen = s.fiqen := rfl
@[simp] theorem setLastRead_rsten (s : State) (reg : EnReg) (u : BitVec 28) : (s.setLastRead reg u).rsten = s.rsten := rfl
@[simp] theorem setLastRead_dbgen (s : State) (reg : EnReg) (u : BitVec 28) : (s.setLastRead reg u).dbgen = s.dbgen := rfl
@[simp] theorem setLastRead_cso (s : State) (reg : EnReg) (u : BitVec 28) : (s.setLastRead reg u).cso = s.cso := rfl
@[simp] theorem setLastRead_cpu (s : State) (reg : EnReg) (u : BitVec 28) : (s.setLastRead reg u).cpu = s.cpu := rfl
@[simp] theorem setLastRead_inputs (s : State) (reg : EnReg) (u : BitVec 28) : (s.setLastRead reg u).inputs = s.inputs := rfl
@[simp] theorem setLastRead_params (s : State) (reg : EnReg) (u : BitVec 28) : (s.setLastRead reg u).params = s.params := rfl
@[simp] theorem setLastRead_draws (s : State) (reg : EnReg) (u : BitVec 28) : (s.setLastRead reg u).draws = s.draws := rfl
@[simp] theorem setLastRead_env (s : State) (reg : EnReg) (u : BitVec 28) : (s.setLastRead reg u).env = s.env := rfl
@[simp] theorem setLastRead_mask (s : State) (reg : EnReg) (u : BitVec 28) (k : Kind) : (s.setLastRead reg u).mask k = s.mask k := by cases k <;> rfl
@[simp] theorem setLastRead_block (s : State) (reg : EnReg) (u : BitVec 28) : (s.setLastRead reg u).block = s.block := rfl

theorem regNumber_injective {reg q : EnReg} (h : regNumber reg = regNumber q) : reg = q := by
  revert h; cases reg <;> cases q <;> decide

@[simp] theorem lastRead_setLastRead_same (s : State) (reg : EnReg) (u : BitVec 28) :
    (s.setLastRead reg u).lastRead reg = some u := by
  simp [State.lastRead, State.setLastRead]

theorem lastRead_setLastRead_other (s : State) (reg q : EnReg) (u : BitVec 28) (h : q ≠ reg) :
    (s.setLastRead reg u).lastRead q = s.lastRead q := by
  have : (regNumber reg).val ≠ (regNumber q).val :=
    fun e => h (regNumber_injective (Fin.ext e)).symm
  simp [State.lastRead, State.setLastRead, this]

/-! ## `setCso`, `draw28`, `placeWord`, `resetBlock` -/

@[simp] theorem setCso_irqen (s : State) (o : Override) : (s.setCso o).irqen = s.irqen := rfl
@[simp] theorem setCso_fiqen (s : State) (o : Override) : (s.setCso o).fiqen = s.fiqen := rfl
@[simp] theorem setCso_rsten (s : State) (o : Override) : (s.setCso o).rsten = s.rsten := rfl
@[simp] theorem setCso_dbgen (s : State) (o : Override) : (s.setCso o).dbgen = s.dbgen := rfl
@[simp] theorem setCso_cso (s : State) (o : Override) : (s.setCso o).cso = some o := rfl
@[simp] theorem setCso_lastRd (s : State) (o : Override) : (s.setCso o).lastRd = s.lastRd := rfl
@[simp] theorem setCso_cpu (s : State) (o : Override) : (s.setCso o).cpu = s.cpu := rfl
@[simp] theorem setCso_inputs (s : State) (o : Override) : (s.setCso o).inputs = s.inputs := rfl
@[simp] theorem setCso_params (s : State) (o : Override) : (s.setCso o).params = s.params := rfl
@[simp] theorem setCso_draws (s : State) (o : Override) : (s.setCso o).draws = s.draws := rfl
@[simp] theorem setCso_env (s : State) (o : Override) : (s.setCso o).env = s.env := rfl
@[simp] theorem draw28_irqen (s : State) : s.draw28.2.irqen = s.irqen := rfl
@[simp] theorem draw28_fiqen (s : State) : s.draw28.2.fiqen = s.fiqen := rfl
@[simp] theorem draw28_rsten (s : State) : s.draw28.2.rsten = s.rsten := rfl
@[simp] theorem draw28_dbgen (s : State) : s.draw28.2.dbgen = s.dbgen := rfl
@[simp] theorem draw28_cso (s : State) : s.draw28.2.cso = s.cso := rfl
@[simp] theorem draw28_lastRd (s : State) : s.draw28.2.lastRd = s.lastRd := rfl
@[simp] theorem draw28_cpu (s : State) : s.draw28.2.cpu = s.cpu := rfl
@[simp] theorem draw28_inputs (s : State) : s.draw28.2.inputs = s.inputs := rfl
@[simp] theorem draw28_params (s : State) : s.draw28.2.params = s.params := rfl
@[simp] theorem draw28_draws (s : State) : s.draw28.2.draws = s.draws + 1 := rfl
@[simp] theorem draw28_env (s : State) : s.draw28.2.env = s.env := rfl
@[simp] theorem draw28_fst (s : State) : s.draw28.1 = Config.freeReserved s.draws := rfl
@[simp] theorem placeWord_irqen (s : State) (w : Word) : (s.placeWord w).irqen = s.irqen := rfl
@[simp] theorem placeWord_fiqen (s : State) (w : Word) : (s.placeWord w).fiqen = s.fiqen := rfl
@[simp] theorem placeWord_rsten (s : State) (w : Word) : (s.placeWord w).rsten = s.rsten := rfl
@[simp] theorem placeWord_dbgen (s : State) (w : Word) : (s.placeWord w).dbgen = s.dbgen := rfl
@[simp] theorem placeWord_cso (s : State) (w : Word) : (s.placeWord w).cso = s.cso := rfl
@[simp] theorem placeWord_lastRd (s : State) (w : Word) : (s.placeWord w).lastRd = s.lastRd := rfl
@[simp] theorem placeWord_inputs (s : State) (w : Word) : (s.placeWord w).inputs = s.inputs := rfl
@[simp] theorem placeWord_params (s : State) (w : Word) : (s.placeWord w).params = s.params := rfl
@[simp] theorem placeWord_draws (s : State) (w : Word) : (s.placeWord w).draws = s.draws := rfl
@[simp] theorem placeWord_env (s : State) (w : Word) : (s.placeWord w).env = s.env := rfl
@[simp] theorem placeWord_x (s : State) (w : Word) : (s.placeWord w).cpu.x = s.cpu.x := rfl
@[simp] theorem placeWord_pc (s : State) (w : Word) : (s.placeWord w).cpu.pc = s.cpu.pc := rfl
@[simp] theorem resetBlock_irqen (s : State) (c : Cpu) (i : Inputs) : (s.resetBlock c i).irqen = Config.resetIrqen s.draws := rfl
@[simp] theorem resetBlock_fiqen (s : State) (c : Cpu) (i : Inputs) : (s.resetBlock c i).fiqen = Config.resetFiqen s.draws := rfl
@[simp] theorem resetBlock_rsten (s : State) (c : Cpu) (i : Inputs) : (s.resetBlock c i).rsten = Config.resetRsten s.draws := rfl
@[simp] theorem resetBlock_dbgen (s : State) (c : Cpu) (i : Inputs) : (s.resetBlock c i).dbgen = Config.resetDbgen s.draws := rfl
@[simp] theorem resetBlock_cso (s : State) (c : Cpu) (i : Inputs) : (s.resetBlock c i).cso = none := rfl
@[simp] theorem resetBlock_lastRd (s : State) (c : Cpu) (i : Inputs) : (s.resetBlock c i).lastRd = Vector.replicate 8 none := rfl
@[simp] theorem resetBlock_cpu (s : State) (c : Cpu) (i : Inputs) : (s.resetBlock c i).cpu = c := rfl
@[simp] theorem resetBlock_inputs (s : State) (c : Cpu) (i : Inputs) : (s.resetBlock c i).inputs = i := rfl
@[simp] theorem resetBlock_params (s : State) (c : Cpu) (i : Inputs) : (s.resetBlock c i).params = s.params := rfl
@[simp] theorem resetBlock_draws (s : State) (c : Cpu) (i : Inputs) : (s.resetBlock c i).draws = s.draws + 1 := rfl
@[simp] theorem resetBlock_env (s : State) (c : Cpu) (i : Inputs) : (s.resetBlock c i).env = s.env := rfl

@[simp] theorem wiredReset_irqen (s : State) : s.wiredReset.irqen = Config.resetIrqen s.draws := rfl
@[simp] theorem wiredReset_fiqen (s : State) : s.wiredReset.fiqen = Config.resetFiqen s.draws := rfl
@[simp] theorem wiredReset_rsten (s : State) : s.wiredReset.rsten = Config.resetRsten s.draws := rfl
@[simp] theorem wiredReset_dbgen (s : State) : s.wiredReset.dbgen = Config.resetDbgen s.draws := rfl
@[simp] theorem wiredReset_cso (s : State) : s.wiredReset.cso = none := rfl
@[simp] theorem wiredReset_lastRd (s : State) : s.wiredReset.lastRd = Vector.replicate 8 none := rfl
@[simp] theorem wiredReset_mem (s : State) : s.wiredReset.cpu.mem = s.cpu.mem := rfl
@[simp] theorem wiredReset_params (s : State) : s.wiredReset.params = s.params := rfl
@[simp] theorem wiredReset_draws (s : State) : s.wiredReset.draws = s.draws + 1 := rfl
@[simp] theorem wiredReset_env (s : State) : s.wiredReset.env = s.env := rfl

@[simp] theorem landEvent_params (s : State) : s.landEvent.params = s.params := by
  unfold State.landEvent
  split
  · rfl
  · next e _ _ => cases e <;> rfl

/-! ## Whole effects -/

@[simp] theorem readEffect_x (reg : EnReg) (r : Fin 15) (s : State) : (readEffect reg r s).cpu.x =
    s.cpu.x.set r (readValue (s.mask (regKind reg)) (Config.freeReserved s.draws)) := rfl
@[simp] theorem readEffect_pc (reg : EnReg) (r : Fin 15) (s : State) :
    (readEffect reg r s).cpu.pc = s.cpu.pc + 4#32 := rfl
@[simp] theorem readEffect_mem (reg : EnReg) (r : Fin 15) (s : State) :
    (readEffect reg r s).cpu.mem = s.cpu.mem := rfl
@[simp] theorem readEffect_block (reg : EnReg) (r : Fin 15) (s : State) :
    (readEffect reg r s).block = s.block := rfl
@[simp] theorem readEffect_inputs (reg : EnReg) (r : Fin 15) (s : State) :
    (readEffect reg r s).inputs = s.inputs := rfl
@[simp] theorem readEffect_params (reg : EnReg) (r : Fin 15) (s : State) :
    (readEffect reg r s).params = s.params := rfl
@[simp] theorem readEffect_draws (reg : EnReg) (r : Fin 15) (s : State) :
    (readEffect reg r s).draws = s.draws + 1 := rfl
@[simp] theorem readEffect_env (reg : EnReg) (r : Fin 15) (s : State) :
    (readEffect reg r s).env = s.env := rfl
@[simp] theorem readEffect_lastRd (reg : EnReg) (r : Fin 15) (s : State) : (readEffect reg r s).lastRd =
    s.lastRd.set (regNumber reg) (some (Config.freeReserved s.draws)) := rfl

@[simp] theorem writeEffect_x (reg : EnReg) (v : Word) (s : State) :
    (writeEffect reg v s).cpu.x = s.cpu.x := by simp [writeEffect]
@[simp] theorem writeEffect_pc (reg : EnReg) (v : Word) (s : State) :
    (writeEffect reg v s).cpu.pc = s.cpu.pc + 4#32 := by simp [writeEffect]
@[simp] theorem writeEffect_mem (reg : EnReg) (v : Word) (s : State) :
    (writeEffect reg v s).cpu.mem = s.cpu.mem := by simp [writeEffect]
@[simp] theorem writeEffect_cso (reg : EnReg) (v : Word) (s : State) :
    (writeEffect reg v s).cso = s.cso := by simp [writeEffect]
@[simp] theorem writeEffect_lastRd (reg : EnReg) (v : Word) (s : State) :
    (writeEffect reg v s).lastRd = s.lastRd := by simp [writeEffect]
@[simp] theorem writeEffect_inputs (reg : EnReg) (v : Word) (s : State) :
    (writeEffect reg v s).inputs = s.inputs := by simp [writeEffect]
@[simp] theorem writeEffect_params (reg : EnReg) (v : Word) (s : State) :
    (writeEffect reg v s).params = s.params := by simp [writeEffect]
@[simp] theorem writeEffect_draws (reg : EnReg) (v : Word) (s : State) :
    (writeEffect reg v s).draws = s.draws := by simp [writeEffect]
@[simp] theorem writeEffect_env (reg : EnReg) (v : Word) (s : State) :
    (writeEffect reg v s).env = s.env := by simp [writeEffect]
@[simp] theorem writeEffect_mask_same (reg : EnReg) (v : Word) (s : State) :
    (writeEffect reg v s).mask (regKind reg) =
      writePort (regPort reg) (s.mask (regKind reg)) (functionBits v) := by simp [writeEffect]

theorem writeEffect_mask_other (reg : EnReg) (v : Word) (s : State) (k : Kind) (h : k ≠ regKind reg) :
    (writeEffect reg v s).mask k = s.mask k := by
  simp [writeEffect, mask_setMask_other _ _ _ _ h]

end Sys2Proof.Machine
end

