-- ==== Sys2Proof/Laws/Ops.lean ====
section
/-! SUPPORT. One lemma per shared operation: everything it can answer; and the inversion of `exec`. The proofs
cite these and do not unfold the operations. -/

namespace Sys2Proof.Machine

/-! ## Operands -/

@[simp] theorem general?_ofNat (r : Fin 15) : general? (BitVec.ofNat 4 r) = some r := by
  revert r; decide

theorem general?_eq_none {d : Reg} : general? d = none ↔ d = 15#4 := by
  revert d; decide

theorem general?_eq_some {d : Reg} {r : Fin 15} : general? d = some r ↔ d = BitVec.ofNat 4 r := by
  revert d r; decide

/-- A Rd field is r15 or one of the fifteen general registers. -/
theorem reg_cases (d : Reg) : d = 15#4 ∨ ∃ r : Fin 15, d = BitVec.ofNat 4 r := by
  revert d; decide

@[simp] theorem withGeneral_r15 (f : Fin 15 → Answer) : withGeneral 15#4 f = .refused .rdIsR15 := rfl

@[simp] theorem withGeneral_ofNat (r : Fin 15) (f : Fin 15 → Answer) :
    withGeneral (BitVec.ofNat 4 r) f = f r := by
  simp [withGeneral]

/-- Every bit of a value read (40_enable_set_clear.md R74). -/
theorem getLsbD_readValue (e : EnableMask) (u : BitVec 28) (k : Nat) : (readValue e u).getLsbD k =
    if k = 0 then e.p0 else if k = 1 then e.p1 else if k = 2 then e.p2
    else if k < 31 then u.getLsbD (k - 3) else if k = 31 then e.c else false := by
  have hb : ∀ (b : Bool) (j : Nat), (BitVec.ofBool b).getLsbD j = (decide (j = 0) && b) := by
    intro b j; cases b <;> cases j <;> simp [BitVec.ofBool]
  simp only [readValue, BitVec.getLsbD_append, hb]
  rcases k with _ | _ | _ | k
  · simp
  · simp
  · simp
  · by_cases h1 : k < 28
    · simp [show ¬ (k + 2 < 1) by omega, show ¬ (k + 1 < 1) by omega, h1, show k + 1 + 1 + 1 < 31 by omega]
    · by_cases h2 : k = 28
      · subst h2; simp
      · simp [show ¬ (k + 1 + 1 + 1 < 31) by omega, h1, show ¬ (k + 1 + 1 + 1 = 31) by omega,
          show ¬ (k - 28 = 0) by omega]

/-- The function bits of a value read are the mask (R74). -/
@[simp] theorem functionBits_readValue (e : EnableMask) (u : BitVec 28) : functionBits (readValue e u) = e := by
  simp only [functionBits, getLsbD_readValue]; simp

/-- The reserved bits of a value read are the draw (R74). -/
@[simp] theorem reservedBits_readValue (e : EnableMask) (u : BitVec 28) : reservedBits (readValue e u) = u := by
  apply BitVec.eq_of_getLsbD_eq
  intro i hi
  simp only [reservedBits, BitVec.getLsbD_extractLsb', hi, decide_true, Bool.true_and, getLsbD_readValue]
  simp [show ¬ (3 + i = 1) by omega, show ¬ (3 + i = 2) by omega, show 3 + i < 31 by omega]

/-- `(v & F_MASK) == pk(E)` (R74): the draw is masked away. -/
theorem readValue_and_function (e : EnableMask) (u : BitVec 28) : readValue e u &&& 0x80000007#32 = pk e := by
  have hm : ∀ k, k < 32 → (0x80000007#32).getLsbD k =
      (decide (k = 0) || decide (k = 1) || decide (k = 2) || decide (k = 31)) := by decide
  apply BitVec.eq_of_getLsbD_eq
  intro k hk
  simp only [BitVec.getLsbD_and, pk, getLsbD_readValue, hm k hk]
  by_cases h0 : k = 0
  · simp [h0]
  by_cases h1 : k = 1
  · simp [h1]
  by_cases h2 : k = 2
  · simp [h2]
  by_cases h3 : k = 31
  · simp [h3]
  · simp [h0, h1, h2, h3, show k < 31 by omega]

@[simp] theorem cacheSize?_cacheCode (z : CacheSize) : cacheSize? (cacheCode z) = some z := by
  cases z <;> rfl

/-- A code selects a size exactly if it is that size's code in Table 4.51 (10_state.md R38). -/
theorem cacheSize?_eq_some {n : BitVec 4} {z : CacheSize} : cacheSize? n = some z ↔ n = cacheCode z := by
  revert n; cases z <;> decide

/-- The codes that select no size are the eleven Table 4.51 does not list (R38). -/
theorem cacheSize?_eq_none {n : BitVec 4} : cacheSize? n = none ↔
    n ∈ [2#4, 4#4, 5#4, 6#4, 8#4, 9#4, 10#4, 11#4, 12#4, 13#4, 14#4] := by
  revert n; decide

/-! ## The condition -/

theorem whenPassed_of_passed {c : Cond} {s : State} (a : Answer) (h : condPassed c s = true) :
    whenPassed c s a = a := by simp [whenPassed, h]

theorem whenPassed_of_failed {c : Cond} {s : State} (a : Answer) (h : condPassed c s = false) :
    whenPassed c s a = .next s.advance := by simp [whenPassed, h]

@[simp] theorem condPassed_always (s : State) : condPassed 0xE#4 s = true := by simp [condPassed]

/-! ## The shared procedures: what each can answer -/

theorem readEn_next {reg : EnReg} {d : Reg} {s t : State} : readEn reg d s = .next t ↔
    ∃ r : Fin 15, d = BitVec.ofNat 4 r ∧ enAccessOk s = true ∧ t = readEffect reg r s := by
  rcases reg_cases d with rfl | ⟨r, rfl⟩
  · have : ∀ r : Fin 15, 15#4 ≠ BitVec.ofNat 4 r := by decide
    simp [readEn, this]
  · have inj : ∀ q : Fin 15, BitVec.ofNat 4 r.val = BitVec.ofNat 4 q.val → r = q := by revert r; decide
    simp only [readEn, withGeneral_ofNat, raiseUndefined]
    constructor
    · intro h
      split at h
      · next ok => exact ⟨r, rfl, ok, by simpa using h.symm⟩
      · cases h
    · rintro ⟨q, e, ok, rfl⟩
      rw [inj q e]; simp [ok]

theorem readEn_fault {reg : EnReg} {d : Reg} {s : State} {f : Fault} : readEn reg d s = .fault f ↔
    d ≠ 15#4 ∧ enAccessOk s = false ∧ f = .undefined := by
  rcases reg_cases d with rfl | ⟨r, rfl⟩
  · simp [readEn]
  · have ne : BitVec.ofNat 4 r.val ≠ 15#4 := by revert r; decide
    simp only [readEn, withGeneral_ofNat, raiseUndefined, ne, ne_eq, not_false_eq_true, true_and]
    cases enAccessOk s <;> simp [eq_comm]

theorem readEn_refused {reg : EnReg} {d : Reg} {s : State} {q : Refusal} : readEn reg d s = .refused q ↔
    d = 15#4 ∧ q = .rdIsR15 := by
  rcases reg_cases d with rfl | ⟨r, rfl⟩
  · simp only [readEn, withGeneral_r15, true_and, Host.Outcome.refused.injEq]; exact eq_comm
  · have ne : BitVec.ofNat 4 r.val ≠ 15#4 := by revert r; decide
    simp only [readEn, withGeneral_ofNat, raiseUndefined, ne, false_and, iff_false]
    cases enAccessOk s <;> simp

theorem writeEn_next {reg : EnReg} {d : Reg} {s t : State} : writeEn reg d s = .next t ↔
    ∃ r : Fin 15, d = BitVec.ofNat 4 r ∧ enAccessOk s = true ∧
      sbzpAdmits s.params.sbzpPolicy (s.lastRead reg) (reservedBits (s.getX r)) = true ∧
      t = writeEffect reg (s.getX r) s := by
  rcases reg_cases d with rfl | ⟨r, rfl⟩
  · have : ∀ r : Fin 15, 15#4 ≠ BitVec.ofNat 4 r := by decide
    simp [writeEn, this]
  · have inj : ∀ q : Fin 15, BitVec.ofNat 4 r.val = BitVec.ofNat 4 q.val → r = q := by revert r; decide
    simp only [writeEn, withGeneral_ofNat, raiseUndefined]
    constructor
    · intro h
      split at h
      · next ok =>
        split at h
        · next adm => exact ⟨r, rfl, ok, adm, by simpa using h.symm⟩
        · cases h
      · cases h
    · rintro ⟨q, e, ok, adm, rfl⟩
      rw [inj q e]; simp [ok, adm]

theorem writeEn_fault {reg : EnReg} {d : Reg} {s : State} {f : Fault} : writeEn reg d s = .fault f ↔
    d ≠ 15#4 ∧ enAccessOk s = false ∧ f = .undefined := by
  rcases reg_cases d with rfl | ⟨r, rfl⟩
  · simp [writeEn]
  · have ne : BitVec.ofNat 4 r.val ≠ 15#4 := by revert r; decide
    simp only [writeEn, withGeneral_ofNat, raiseUndefined, ne, ne_eq, not_false_eq_true, true_and]
    cases enAccessOk s
    · simp
    · cases sbzpAdmits s.params.sbzpPolicy (s.lastRead reg) (reservedBits (s.getX r)) <;> simp

theorem writeEn_refused {reg : EnReg} {d : Reg} {s : State} {q : Refusal} : writeEn reg d s = .refused q ↔
    (d = 15#4 ∧ q = .rdIsR15) ∨
    (∃ r : Fin 15, d = BitVec.ofNat 4 r ∧ enAccessOk s = true ∧
      sbzpAdmits s.params.sbzpPolicy (s.lastRead reg) (reservedBits (s.getX r)) = false ∧
      q = .sbzpViolated) := by
  rcases reg_cases d with rfl | ⟨r, rfl⟩
  · have : ∀ r : Fin 15, 15#4 ≠ BitVec.ofNat 4 r := by decide
    simp only [writeEn, withGeneral_r15, this, false_and, exists_false, or_false, true_and,
      Host.Outcome.refused.injEq]; exact eq_comm
  · have ne : BitVec.ofNat 4 r.val ≠ 15#4 := by revert r; decide
    have inj : ∀ q : Fin 15, BitVec.ofNat 4 r.val = BitVec.ofNat 4 q.val → r = q := by revert r; decide
    simp only [writeEn, withGeneral_ofNat, raiseUndefined, ne, false_and, false_or]
    constructor
    · intro h
      split at h
      · next ok =>
        split at h
        · cases h
        · next adm => exact ⟨r, rfl, ok, by simpa using adm, by simpa using h.symm⟩
      · cases h
    · rintro ⟨p, e, ok, adm, rfl⟩
      rw [inj p e]; simp [ok, adm]

theorem csoValue_ok {p : Params} {v : Word} {o : Override} : csoValue p v = .ok o ↔
    csoReserved v = 0#24 ∧ csoDcache v = cacheCode o.d ∧ csoIcache v = cacheCode o.i ∧
      o.allowed p = true := by
  obtain ⟨zd, zi⟩ := o
  rw [← cacheSize?_eq_some, ← cacheSize?_eq_some]
  simp only [csoValue, Override.allowed]
  by_cases hr : csoReserved v = 0#24
  · cases hd : cacheSize? (csoDcache v) with
    | none => simp [hr]
    | some d =>
      cases hi : cacheSize? (csoIcache v) with
      | none => simp [hr]
      | some i =>
        simp only [hr, ne_eq, not_true_eq_false, if_false, true_and, Option.some.injEq]
        constructor
        · intro h
          split at h
          · next hc =>
            obtain ⟨rfl, rfl⟩ : d = zd ∧ i = zi := by simpa using h
            exact ⟨rfl, rfl, hc⟩
          · cases h
        · rintro ⟨rfl, rfl, hc⟩
          rw [if_pos hc]
  · simp [hr]

theorem csoAccessOk_eq (s : State) : csoAccessOk s = s.inputs.priv := rfl

theorem writeCso_next {d : Reg} {s t : State} : writeCso d s = .next t ↔
    ∃ (r : Fin 15) (o : Override), d = BitVec.ofNat 4 r ∧ csoAccessOk s = true ∧
      csoValue s.params (s.getX r) = .ok o ∧ t = (s.setCso o).advance := by
  rcases reg_cases d with rfl | ⟨r, rfl⟩
  · have : ∀ r : Fin 15, 15#4 ≠ BitVec.ofNat 4 r := by decide
    simp [writeCso, this]
  · have inj : ∀ q : Fin 15, BitVec.ofNat 4 r.val = BitVec.ofNat 4 q.val → r = q := by revert r; decide
    simp only [writeCso, withGeneral_ofNat, raiseUndefined]
    constructor
    · intro h
      split at h
      · next ok =>
        split at h
        · next o ho => exact ⟨r, o, rfl, ok, ho, by simpa using h.symm⟩
        · cases h
      · cases h
    · rintro ⟨q, o, e, ok, ho, rfl⟩
      rw [inj q e]; simp [ok, ho]

theorem writeCso_fault {d : Reg} {s : State} {f : Fault} : writeCso d s = .fault f ↔
    d ≠ 15#4 ∧ csoAccessOk s = false ∧ f = .undefined := by
  rcases reg_cases d with rfl | ⟨r, rfl⟩
  · simp [writeCso]
  · have ne : BitVec.ofNat 4 r.val ≠ 15#4 := by revert r; decide
    simp only [writeCso, withGeneral_ofNat, raiseUndefined, ne, ne_eq, not_false_eq_true, true_and]
    cases csoAccessOk s
    · simp
    · cases csoValue s.params (s.getX r) <;> simp

theorem writeCso_refused {d : Reg} {s : State} {q : Refusal} : writeCso d s = .refused q ↔
    (d = 15#4 ∧ q = .rdIsR15) ∨
    (∃ r : Fin 15, d = BitVec.ofNat 4 r ∧ csoAccessOk s = true ∧
      csoValue s.params (s.getX r) = .error q) := by
  rcases reg_cases d with rfl | ⟨r, rfl⟩
  · have : ∀ r : Fin 15, 15#4 ≠ BitVec.ofNat 4 r := by decide
    simp only [writeCso, withGeneral_r15, this, false_and, exists_false, or_false, true_and,
      Host.Outcome.refused.injEq]; exact eq_comm
  · have ne : BitVec.ofNat 4 r.val ≠ 15#4 := by revert r; decide
    have inj : ∀ q : Fin 15, BitVec.ofNat 4 r.val = BitVec.ofNat 4 q.val → r = q := by revert r; decide
    simp only [writeCso, withGeneral_ofNat, raiseUndefined, ne, false_and, false_or]
    constructor
    · intro h
      split at h
      · next ok =>
        split at h
        · cases h
        · next e he => exact ⟨r, rfl, ok, by simpa [he] using h⟩
      · cases h
    · rintro ⟨p, e, ok, he⟩
      rw [inj p e]; simp [ok, he]

/-! ## The four shapes of an instruction, and the inversion of `exec` -/

/-- Every instruction is a read of an enable register, a write of one, the write of `VAL_CSOR` or its read. -/
theorem instr_cases (i : Instr) : (∃ reg, i.reads? = some reg) ∨ (∃ reg, i.writes? = some reg) ∨
    (∃ c d, i = .mcrCsor c d) ∨ (∃ c d, i = .mrcCsor c d) := by
  cases i <;> simp [Instr.reads?, Instr.writes?]

theorem exec_of_reads {i : Instr} {reg : EnReg} (s : State) (h : i.reads? = some reg) :
    exec i s = whenPassed i.cond s (readEn reg i.rd s) := by
  cases i <;> simp [Instr.reads?] at h <;> subst h <;> rfl

theorem exec_of_writes {i : Instr} {reg : EnReg} (s : State) (h : i.writes? = some reg) :
    exec i s = whenPassed i.cond s (writeEn reg i.rd s) := by
  cases i <;> simp [Instr.writes?] at h <;> subst h <;> rfl

theorem exec_mcrCsor (c : Cond) (d : Reg) (s : State) :
    exec (.mcrCsor c d) s = whenPassed c s (writeCso d s) := rfl

theorem exec_mrcCsor (c : Cond) (d : Reg) (s : State) :
    exec (.mrcCsor c d) s = whenPassed c s (.refused .readOfWriteOnly) := rfl

/-- Everything an instruction can do when it answers a next state. -/
theorem exec_next_cases {i : Instr} {s t : State} (h : exec i s = .next t) :
    (condPassed i.cond s = false ∧ t = s.advance) ∨
    (condPassed i.cond s = true ∧ ∃ (reg : EnReg) (r : Fin 15), i.reads? = some reg ∧
      i.rd = BitVec.ofNat 4 r ∧ enAccessOk s = true ∧ t = readEffect reg r s) ∨
    (condPassed i.cond s = true ∧ ∃ (reg : EnReg) (r : Fin 15), i.writes? = some reg ∧
      i.rd = BitVec.ofNat 4 r ∧ enAccessOk s = true ∧
      sbzpAdmits s.params.sbzpPolicy (s.lastRead reg) (reservedBits (s.getX r)) = true ∧
      t = writeEffect reg (s.getX r) s) ∨
    (condPassed i.cond s = true ∧ i.isCsoWrite = true ∧ ∃ (r : Fin 15) (o : Override),
      i.rd = BitVec.ofNat 4 r ∧ s.inputs.priv = true ∧ csoValue s.params (s.getX r) = .ok o ∧
      t = (s.setCso o).advance) := by
  cases hp : condPassed i.cond s with
  | false =>
    rcases instr_cases i with ⟨reg, hi⟩ | ⟨reg, hi⟩ | ⟨c, d, rfl⟩ | ⟨c, d, rfl⟩
    · rw [exec_of_reads s hi, whenPassed_of_failed _ hp] at h
      exact .inl ⟨rfl, by simpa using h.symm⟩
    · rw [exec_of_writes s hi, whenPassed_of_failed _ hp] at h
      exact .inl ⟨rfl, by simpa using h.symm⟩
    · rw [exec_mcrCsor, whenPassed_of_failed (c := c) _ hp] at h
      exact .inl ⟨rfl, by simpa using h.symm⟩
    · rw [exec_mrcCsor, whenPassed_of_failed (c := c) _ hp] at h
      exact .inl ⟨rfl, by simpa using h.symm⟩
  | true =>
    rcases instr_cases i with ⟨reg, hi⟩ | ⟨reg, hi⟩ | ⟨c, d, rfl⟩ | ⟨c, d, rfl⟩
    · rw [exec_of_reads s hi, whenPassed_of_passed _ hp, readEn_next] at h
      obtain ⟨r, h1, h2, h3⟩ := h
      exact .inr (.inl ⟨rfl, reg, r, hi, h1, h2, h3⟩)
    · rw [exec_of_writes s hi, whenPassed_of_passed _ hp, writeEn_next] at h
      obtain ⟨r, h1, h2, h3, h4⟩ := h
      exact .inr (.inr (.inl ⟨rfl, reg, r, hi, h1, h2, h3, h4⟩))
    · rw [exec_mcrCsor, whenPassed_of_passed (c := c) _ hp, writeCso_next] at h
      obtain ⟨r, o, h1, h2, h3, h4⟩ := h
      exact .inr (.inr (.inr ⟨rfl, rfl, r, o, h1, h2, h3, h4⟩))
    · rw [exec_mrcCsor, whenPassed_of_passed (c := c) _ hp] at h
      cases h

/-! ## Between two instructions -/

theorem afterInstruction_next {a : Answer} {u : State} (h : afterInstruction a = .next u) :
    ∃ t, a = .next t ∧ u = t.settle := by
  cases a with
  | next t => exact ⟨t, rfl, by simpa [afterInstruction] using h.symm⟩
  | fault f => cases h
  | refused r => cases h

/-- What happens before the next step: nothing, or an event lands. -/
theorem settle_cases (s : State) : (s.resetAtProcessor = true ∧ s.settle = s) ∨
    (s.resetAtProcessor = false ∧ s.settle = s.landEvent) := by
  cases h : s.resetAtProcessor <;> simp [State.settle, h]

@[simp] theorem settle_params (s : State) : s.settle.params = s.params := by
  rcases settle_cases s with ⟨-, h⟩ | ⟨-, h⟩ <;> simp [h]

theorem step_of_wiredReset {s : State} (h : s.resetAtProcessor = true) : step s = .next s.wiredReset.settle := by
  simp [step, h]

/-- Everything a step can do when it answers a next state. -/
theorem step_next_cases {s u : State} (h : step s = .next u) :
    (s.resetAtProcessor = true ∧ u = s.wiredReset.settle) ∨
    (s.resetAtProcessor = false ∧ ∃ bytes i rest t, s.fetch = some bytes ∧
      decodeBytes s.params.byteOrder bytes = .ok (i, rest) ∧ exec i s = .next t ∧ u = t.settle) := by
  cases hr : s.resetAtProcessor with
  | true =>
    rw [step_of_wiredReset hr] at h
    exact .inl ⟨rfl, by simpa using h.symm⟩
  | false =>
    simp only [step, hr, Bool.false_eq_true, if_false] at h
    split at h
    · cases h
    · next bytes hf =>
      split at h
      · next i rest hd =>
        obtain ⟨t, ht, hu⟩ := afterInstruction_next h
        exact .inr ⟨rfl, bytes, i, rest, t, hf, hd, ht, hu⟩
      · cases h
      · cases h

/-- No reset is requested and wired back after a word is loaded, whatever the state was (log 4). -/
theorem resetAtProcessor_withFetchWord (s : State) (nbits w : Nat) :
    (s.withFetchWord nbits w).resetAtProcessor = false := by
  unfold State.withFetchWord
  dsimp only
  split
  · simp [State.resetAtProcessor, State.rstReq, requested]
  · next h => simpa using h

end Sys2Proof.Machine
end

