-- ==== Sys2Proof/Tests/Slice0.lean ====
section
/-! SUPPORT. The model's own tests, their expected results from the spec's worked examples (40_enable_set_clear.md R78
to R93, 41_cache_size_override.md R101) and vectors (95_test_vectors.md V1 to V9); and a named witness for the
hypotheses of every obligation that has hypotheses. -/

namespace Sys2Proof.Tests

open Sys2Proof Sys2Proof.Machine Sys2Proof.Claims

/-! ## A small state -/

/-- A mask or an overflow from its tuple (C, P2, P1, P0). -/
def m4 (c p2 p1 p0 : Bool) : EnableMask := ⟨c, p2, p1, p0⟩

/-- Privileged mode, the masks and the override absent, every general register holding `x`, nothing in memory. -/
def st (x : Word) : State where
  irqen  := allOff
  fiqen  := allOff
  rsten  := allOff
  dbgen  := allOff
  cso    := none
  lastRd := Vector.replicate 8 none
  cpu    := ⟨Vector.replicate 15 x, 0#32, []⟩
  inputs := ⟨true, false, ⟨false, false, false, false⟩, []⟩
  params := ⟨[.kB4, .kB8, .kB16], [.kB4, .kB8, .kB16], .zeroOrPreserved, .little, .nowhere⟩
  draws  := 7
  env    := []

/-- The same outside Privileged mode, with or without the User Enable permission. -/
def user (x : Word) (permitted : Bool) : State :=
  { st x with inputs := { (st x).inputs with priv := false, userEn := permitted } }

/-- The state an answer gives, if it gives one. -/
def nextOf : Answer → Option State
  | .next t    => some t
  | .fault _   => none
  | .refused _ => none

/-- The refusal an answer is, if it is one. -/
def refusalOf : Answer → Option Refusal
  | .next _    => none
  | .fault _   => none
  | .refused r => some r

/-- The fault an answer is, if it is one. -/
def faultOf : Answer → Option Fault
  | .next _    => none
  | .fault f   => some f
  | .refused _ => none

/-! ## WellFormed: its one check refuses condition b1111, in every constructor (30_encoding.md R65) -/

theorem test_wellFormed_refuses_condition_1111 :
    ∀ i ∈ [Instr.mrcIrqEnset 0xF#4 0#4, .mcrIrqEnset 0xF#4 1#4, .mrcFiqEnset 0xF#4 2#4, .mcrFiqEnset 0xF#4 3#4,
      .mrcRstEnset 0xF#4 4#4, .mcrRstEnset 0xF#4 5#4, .mrcDbgEnset 0xF#4 6#4, .mcrDbgEnset 0xF#4 7#4,
      .mrcIrqEnclr 0xF#4 8#4, .mcrIrqEnclr 0xF#4 9#4, .mrcFiqEnclr 0xF#4 10#4, .mcrFiqEnclr 0xF#4 11#4,
      .mrcRstEnclr 0xF#4 12#4, .mcrRstEnclr 0xF#4 13#4, .mrcDbgEnclr 0xF#4 14#4, .mcrDbgEnclr 0xF#4 15#4,
      .mcrCsor 0xF#4 0#4, .mrcCsor 0xF#4 15#4], i.wellFormed = false := by decide

/-- r15 is an encoding (95_test_vectors.md V9); it is refused when it runs. -/
theorem test_wellFormed_admits_r15 : (Instr.mcrRstEnset 14#4 15#4).wellFormed = true := by decide

/-! ## Decoding: the third column of the table of 30_encoding.md R63, one word a constructor -/

theorem test_decode_mrcIrqEnset : decodeWord 0xEE1F0F11#32 = .ok (.mrcIrqEnset 14#4 0#4) ∧ encode (.mrcIrqEnset 14#4 0#4) = 0xEE1F0F11#32 := by decide

theorem test_decode_mcrIrqEnset : decodeWord 0xEE0F0F11#32 = .ok (.mcrIrqEnset 14#4 0#4) ∧ encode (.mcrIrqEnset 14#4 0#4) = 0xEE0F0F11#32 := by decide

theorem test_decode_mrcFiqEnset : decodeWord 0xEE1F0F31#32 = .ok (.mrcFiqEnset 14#4 0#4) ∧ encode (.mrcFiqEnset 14#4 0#4) = 0xEE1F0F31#32 := by decide

theorem test_decode_mcrFiqEnset : decodeWord 0xEE0F0F31#32 = .ok (.mcrFiqEnset 14#4 0#4) ∧ encode (.mcrFiqEnset 14#4 0#4) = 0xEE0F0F31#32 := by decide

theorem test_decode_mrcRstEnset : decodeWord 0xEE1F0F51#32 = .ok (.mrcRstEnset 14#4 0#4) ∧ encode (.mrcRstEnset 14#4 0#4) = 0xEE1F0F51#32 := by decide

theorem test_decode_mcrRstEnset : decodeWord 0xEE0F0F51#32 = .ok (.mcrRstEnset 14#4 0#4) ∧ encode (.mcrRstEnset 14#4 0#4) = 0xEE0F0F51#32 := by decide

theorem test_decode_mrcDbgEnset : decodeWord 0xEE1F0F71#32 = .ok (.mrcDbgEnset 14#4 0#4) ∧ encode (.mrcDbgEnset 14#4 0#4) = 0xEE1F0F71#32 := by decide

theorem test_decode_mcrDbgEnset : decodeWord 0xEE0F0F71#32 = .ok (.mcrDbgEnset 14#4 0#4) ∧ encode (.mcrDbgEnset 14#4 0#4) = 0xEE0F0F71#32 := by decide

theorem test_decode_mrcIrqEnclr : decodeWord 0xEE1F0F91#32 = .ok (.mrcIrqEnclr 14#4 0#4) ∧ encode (.mrcIrqEnclr 14#4 0#4) = 0xEE1F0F91#32 := by decide

theorem test_decode_mcrIrqEnclr : decodeWord 0xEE0F0F91#32 = .ok (.mcrIrqEnclr 14#4 0#4) ∧ encode (.mcrIrqEnclr 14#4 0#4) = 0xEE0F0F91#32 := by decide

theorem test_decode_mrcFiqEnclr : decodeWord 0xEE1F0FB1#32 = .ok (.mrcFiqEnclr 14#4 0#4) ∧ encode (.mrcFiqEnclr 14#4 0#4) = 0xEE1F0FB1#32 := by decide

theorem test_decode_mcrFiqEnclr : decodeWord 0xEE0F0FB1#32 = .ok (.mcrFiqEnclr 14#4 0#4) ∧ encode (.mcrFiqEnclr 14#4 0#4) = 0xEE0F0FB1#32 := by decide

theorem test_decode_mrcRstEnclr : decodeWord 0xEE1F0FD1#32 = .ok (.mrcRstEnclr 14#4 0#4) ∧ encode (.mrcRstEnclr 14#4 0#4) = 0xEE1F0FD1#32 := by decide

theorem test_decode_mcrRstEnclr : decodeWord 0xEE0F0FD1#32 = .ok (.mcrRstEnclr 14#4 0#4) ∧ encode (.mcrRstEnclr 14#4 0#4) = 0xEE0F0FD1#32 := by decide

theorem test_decode_mrcDbgEnclr : decodeWord 0xEE1F0FF1#32 = .ok (.mrcDbgEnclr 14#4 0#4) ∧ encode (.mrcDbgEnclr 14#4 0#4) = 0xEE1F0FF1#32 := by decide

theorem test_decode_mcrDbgEnclr : decodeWord 0xEE0F0FF1#32 = .ok (.mcrDbgEnclr 14#4 0#4) ∧ encode (.mcrDbgEnclr 14#4 0#4) = 0xEE0F0FF1#32 := by decide

theorem test_decode_mcrCsor : decodeWord 0xEE0F0F1E#32 = .ok (.mcrCsor 14#4 0#4) ∧ encode (.mcrCsor 14#4 0#4) = 0xEE0F0F1E#32 := by decide

theorem test_decode_mrcCsor : decodeWord 0xEE1F0F1E#32 = .ok (.mrcCsor 14#4 0#4) ∧ encode (.mrcCsor 14#4 0#4) = 0xEE1F0F1E#32 := by decide

/-- The words of V9 that are not the block's: condition b1111, a neighbouring coordinate, another opcode_1, CRn or
coprocessor. -/
theorem test_decode_notMine_fields :
    decodeWord 0xFE0F1F11#32 = .error .notMine ∧
    decodeWord 0xEE0F0F3E#32 = .error .notMine ∧
    decodeWord 0xEE0F0F12#32 = .error .notMine ∧
    decodeWord 0xEE0F0F10#32 = .error .notMine ∧
    decodeWord 0xEE2F0F11#32 = .error .notMine ∧
    decodeWord 0xEE0E0F11#32 = .error .notMine ∧
    decodeWord 0xEE0F0E11#32 = .error .notMine := by decide

/-- The others: a wrong fixed bit, another instruction. -/
theorem test_decode_notMine_fixed_bits :
    decodeWord 0xEE0F0F01#32 = .error .notMine ∧
    decodeWord 0xED0F0F11#32 = .error .notMine ∧
    decodeWord 0xE1A00000#32 = .error .notMine := by decide

/-- The other words of V9: both fields at their extremes. -/
theorem test_decode_fields : decodeWord 0xEE1FFFB1#32 = .ok (.mrcFiqEnclr 14#4 15#4) ∧
    decodeWord 0xEE1FEFF1#32 = .ok (.mrcDbgEnclr 14#4 14#4) ∧
    decodeWord 0x0E0F1F11#32 = .ok (.mcrIrqEnset 0#4 1#4) := by decide

theorem test_decode_truncated : decodeBytes .little [0x11#8, 0x0F#8, 0x0F#8] = .error .truncated := by decide

/-- The bytes of `0xEE0F3F91` in both orders. -/
theorem test_decode_byte_orders :
    decodeBytes .little [0x91#8, 0x3F#8, 0x0F#8, 0xEE#8] = .ok (.mcrIrqEnclr 14#4 3#4, []) ∧
    decodeBytes .big [0xEE#8, 0x0F#8, 0x3F#8, 0x91#8] = .ok (.mcrIrqEnclr 14#4 3#4, []) := by decide

/-! ## The accesses: the example each rule gives -/

/-- The example of R78. -/
theorem test_mrcIrqEnset : ∃ t, exec (.mrcIrqEnset 14#4 1#4) { st 0xFFFFFFFF#32 with irqen := m4 true false false true } = .next t ∧
    t.cpu.x[1] &&& 0x80000007#32 = 0x80000001#32 ∧ t.irqen = m4 true false false true ∧ t.cpu.pc = 4#32 :=
  ⟨_, rfl, readValue_and_function _ _, rfl, rfl⟩

/-- The example of R80. -/
theorem test_mrcFiqEnset : ∃ t, exec (.mrcFiqEnset 14#4 2#4) { st 0xFFFFFFFF#32 with fiqen := m4 false false true false } = .next t ∧
    t.cpu.x[2] &&& 0x80000007#32 = 0x00000002#32 ∧ t.fiqen = m4 false false true false ∧ t.cpu.pc = 4#32 :=
  ⟨_, rfl, readValue_and_function _ _, rfl, rfl⟩

/-- The example of R82. -/
theorem test_mrcRstEnset : ∃ t, exec (.mrcRstEnset 14#4 0#4) { st 0xFFFFFFFF#32 with rsten := m4 false false false false } = .next t ∧
    t.cpu.x[0] &&& 0x80000007#32 = 0x00000000#32 ∧ t.rsten = m4 false false false false ∧ t.cpu.pc = 4#32 :=
  ⟨_, rfl, readValue_and_function _ _, rfl, rfl⟩

/-- The example of R84. -/
theorem test_mrcDbgEnset : ∃ t, exec (.mrcDbgEnset 14#4 5#4) { st 0xFFFFFFFF#32 with dbgen := m4 true true true true } = .next t ∧
    t.cpu.x[5] &&& 0x80000007#32 = 0x80000007#32 ∧ t.dbgen = m4 true true true true ∧ t.cpu.pc = 4#32 :=
  ⟨_, rfl, readValue_and_function _ _, rfl, rfl⟩

/-- The example of R86. -/
theorem test_mrcIrqEnclr : ∃ t, exec (.mrcIrqEnclr 14#4 1#4) { st 0xFFFFFFFF#32 with irqen := m4 true false false true } = .next t ∧
    t.cpu.x[1] &&& 0x80000007#32 = 0x80000001#32 ∧ t.irqen = m4 true false false true ∧ t.cpu.pc = 4#32 :=
  ⟨_, rfl, readValue_and_function _ _, rfl, rfl⟩

/-- The example of R88. -/
theorem test_mrcFiqEnclr : ∃ t, exec (.mrcFiqEnclr 14#4 7#4) { st 0xFFFFFFFF#32 with fiqen := m4 false true false false } = .next t ∧
    t.cpu.x[7] &&& 0x80000007#32 = 0x00000004#32 ∧ t.fiqen = m4 false true false false ∧ t.cpu.pc = 4#32 :=
  ⟨_, rfl, readValue_and_function _ _, rfl, rfl⟩

/-- The example of R90. -/
theorem test_mrcRstEnclr : ∃ t, exec (.mrcRstEnclr 14#4 9#4) { st 0xFFFFFFFF#32 with rsten := m4 true false false true } = .next t ∧
    t.cpu.x[9] &&& 0x80000007#32 = 0x80000001#32 ∧ t.rsten = m4 true false false true ∧ t.cpu.pc = 4#32 :=
  ⟨_, rfl, readValue_and_function _ _, rfl, rfl⟩

/-- The example of R92. -/
theorem test_mrcDbgEnclr : ∃ t, exec (.mrcDbgEnclr 14#4 11#4) { st 0xFFFFFFFF#32 with dbgen := m4 false true true true } = .next t ∧
    t.cpu.x[11] &&& 0x80000007#32 = 0x00000007#32 ∧ t.dbgen = m4 false true true true ∧ t.cpu.pc = 4#32 :=
  ⟨_, rfl, readValue_and_function _ _, rfl, rfl⟩

/-- The example of R79. -/
theorem test_mcrIrqEnset : (nextOf (exec (.mcrIrqEnset 14#4 0#4) { st 0x80000001#32 with irqen := m4 false true false false })).map
    (fun t => (t.irqen, t.cpu.x[0])) = some (m4 true true false true, 0x80000001#32) := by decide

/-- The example of R81. -/
theorem test_mcrFiqEnset : (nextOf (exec (.mcrFiqEnset 14#4 3#4) { st 0x00000004#32 with fiqen := m4 false false false false })).map
    (fun t => (t.fiqen, t.cpu.x[3])) = some (m4 false true false false, 0x00000004#32) := by decide

/-- The example of R83. -/
theorem test_mcrRstEnset : (nextOf (exec (.mcrRstEnset 14#4 4#4) { st 0x80000000#32 with rsten := m4 false false false true })).map
    (fun t => (t.rsten, t.cpu.x[4])) = some (m4 true false false true, 0x80000000#32) := by decide

/-- The example of R85. -/
theorem test_mcrDbgEnset : (nextOf (exec (.mcrDbgEnset 14#4 6#4) { st 0x00000007#32 with dbgen := m4 false false false false })).map
    (fun t => (t.dbgen, t.cpu.x[6])) = some (m4 false true true true, 0x00000007#32) := by decide

/-- The example of R87. -/
theorem test_mcrIrqEnclr : (nextOf (exec (.mcrIrqEnclr 14#4 0#4) { st 0x00000005#32 with irqen := m4 true true false true })).map
    (fun t => (t.irqen, t.cpu.x[0])) = some (m4 true false false false, 0x00000005#32) := by decide

/-- The example of R89. -/
theorem test_mcrFiqEnclr : (nextOf (exec (.mcrFiqEnclr 14#4 8#4) { st 0x80000007#32 with fiqen := m4 false true false false })).map
    (fun t => (t.fiqen, t.cpu.x[8])) = some (m4 false false false false, 0x80000007#32) := by decide

/-- The example of R91. -/
theorem test_mcrRstEnclr : (nextOf (exec (.mcrRstEnclr 14#4 10#4) { st 0x80000000#32 with rsten := m4 true false false true })).map
    (fun t => (t.rsten, t.cpu.x[10])) = some (m4 false false false true, 0x80000000#32) := by decide

/-- The example of R93. -/
theorem test_mcrDbgEnclr : (nextOf (exec (.mcrDbgEnclr 14#4 12#4) { st 0x00000002#32 with dbgen := m4 false true true true })).map
    (fun t => (t.dbgen, t.cpu.x[12])) = some (m4 false true false true, 0x00000002#32) := by decide

/-- The example of R101. -/
theorem test_mcrCsor : (nextOf (exec (.mcrCsor 14#4 0#4) (st 0x31#32))).map (fun t => t.cso) =
    some (some ⟨.kB16, .kB8⟩) := by decide

/-- V7: the data field is the upper one, a second write replaces the first (R106), and the implemented set of each
cache is its own. -/
theorem test_mcrCsor_fields :
    (nextOf (exec (.mcrCsor 14#4 0#4) { st 0x1F#32 with
      cso := some ⟨.kB16, .kB8⟩
      params := { (st 0#32).params with csoAllowedI := [.kB64] } })).map (fun t => t.cso) =
      some (some ⟨.kB8, .kB64⟩) := by decide

/-- V7: each way of going wrong, with the sets of the example (4kB, 8kB, 16kB). -/
theorem test_mcrCsor_refusals :
    refusalOf (exec (.mcrCsor 14#4 0#4) (st 0x100#32)) = some .sbzViolated ∧
    refusalOf (exec (.mcrCsor 14#4 0#4) (st 0x80000011#32)) = some .sbzViolated ∧
    refusalOf (exec (.mcrCsor 14#4 0#4) (st 0x02#32)) = some .unlistedCacheSize ∧
    refusalOf (exec (.mcrCsor 14#4 0#4) (st 0xE1#32)) = some .unlistedCacheSize ∧
    refusalOf (exec (.mcrCsor 14#4 0#4) (st 0x71#32)) = some .cacheSizeNotIntegrated ∧
    refusalOf (exec (.mcrCsor 14#4 0#4) (st 0x1F#32)) = some .cacheSizeNotIntegrated := by decide

/-- V6: the read of the write-only register is refused before r15 and before the access check. -/
theorem test_mrcCsor : refusalOf (exec (.mrcCsor 14#4 5#4) (user 0#32 false)) = some .readOfWriteOnly ∧
    refusalOf (exec (.mrcCsor 14#4 15#4) (st 0#32)) = some .readOfWriteOnly := by decide

/-- V4: reserved bits, on `VAL_IRQ_ENSET`, with nothing read before. -/
theorem test_reserved_bits_refused :
    refusalOf (exec (.mcrIrqEnset 14#4 0#4) (st 0x9#32)) = some .sbzpViolated ∧
    refusalOf (exec (.mcrIrqEnset 14#4 0#4) (st 0x40000000#32)) = some .sbzpViolated ∧
    refusalOf (exec (.mcrIrqEnset 14#4 0#4) (st 0xFFFFFFFF#32)) = some .sbzpViolated := by decide

/-- LASTRD of `VAL_IRQ_ENSET` holding bit 3 of a read, the other seven absent. -/
def afterRead (x : Word) (p : SbzpPolicy) : State :=
  { st x with
    lastRd := #v[some 1#28, none, none, none, none, none, none, none]
    params := { (st x).params with sbzpPolicy := p } }

/-- V4: preserved bits are admitted under the one policy, to the one register, when equal. -/
theorem test_reserved_bits_preserved :
    (nextOf (exec (.mcrIrqEnset 14#4 0#4) (afterRead 0xD#32 .zeroOrPreserved))).map (fun t => t.irqen) =
      some (m4 false true false true) ∧
    refusalOf (exec (.mcrIrqEnset 14#4 0#4) (afterRead 0xD#32 .zeroOnly)) = some .sbzpViolated ∧
    refusalOf (exec (.mcrIrqEnset 14#4 0#4) (afterRead 0x15#32 .zeroOrPreserved)) = some .sbzpViolated ∧
    refusalOf (exec (.mcrIrqEnclr 14#4 0#4) (afterRead 0xD#32 .zeroOrPreserved)) = some .sbzpViolated := by decide

/-- V5, V6: denied accesses, and the order of checks: r15 before the access check, the access check before the
value. -/
theorem test_denied :
    faultOf (exec (.mrcIrqEnset 14#4 6#4) (user 0#32 false)) = some .undefined ∧
    faultOf (exec (.mcrIrqEnset 14#4 0#4) (user 0xFFFFFFFF#32 false)) = some .undefined ∧
    faultOf (exec (.mcrCsor 14#4 0#4) (user 0x121#32 true)) = some .undefined ∧
    refusalOf (exec (.mcrRstEnset 14#4 15#4) (user 0#32 false)) = some .rdIsR15 := by decide

/-- V5: outside Privileged mode with the User Enable permission the access proceeds. -/
theorem test_permitted : (nextOf (exec (.mcrFiqEnset 14#4 0#4) (user 0x80000007#32 true))).map (fun t => t.fiqen) =
    some allOn := by decide

/-- R65: the failed condition stops no access, and a condition that holds lets it through. -/
theorem test_condition :
    (nextOf (exec (.mrcCsor 0#4 15#4) (user 0#32 false))).map (fun t => t.cpu.pc) = some 4#32 ∧
    (nextOf (exec (.mcrIrqEnset 0#4 0#4) { st 1#32 with
      inputs := { (st 1#32).inputs with condsHeld := [0#4] } })).map (fun t => t.irqen) =
      some (m4 false false false true) := by decide

/-- V8: the levels of the four signals, the rows of the mask (0,1,1,0) and the two rows C3 decides. -/
theorem test_signals :
    (let s := { st 0#32 with
        irqen := m4 false true true false, fiqen := m4 true false false false, rsten := allOn,
        inputs := { (st 0#32).inputs with ovf := ⟨false, false, true, false⟩ } }
     (s.nValIrq, s.nValFiq, s.nValReset, s.valEdbgrq)) = (.low, .high, .low, .low) ∧
    (let s := { st 0#32 with
        irqen := m4 false true true false, dbgen := m4 false false false true,
        inputs := { (st 0#32).inputs with ovf := ⟨true, false, false, true⟩ } }
     (s.nValIrq, s.nValFiq, s.nValReset, s.valEdbgrq)) = (.high, .high, .high, .high) := by decide

/-- From the reset state with a word placed, the next step runs it: here `MCR p15, 0, r0, c15, c1, 4`, r0 = 0. -/
theorem test_step_from_reset : (nextOf (step (State.reset.withFetchWord 32 0xEE0F0F91))).map (fun t => t.cpu.pc) =
    some 4#32 := by decide

/-- From the reset state with nothing placed there is no instruction (log 4). -/
theorem test_step_nothing_placed : refusalOf (step State.reset) = some .noInstruction := by decide

/-- A reset between two instructions (R135): no override, LASTRD absent, the masks drawn anew. -/
theorem test_reset_event :
    (let t := State.landEvent { afterRead 0#32 .zeroOnly with
        cso := some ⟨.kB4, .kB4⟩, env := [.reset (st 5#32).cpu (st 5#32).inputs] }
     (t.cso, t.lastRd.toList, t.cpu.x[0], t.draws)) =
      (none, [none, none, none, none, none, none, none, none], 5#32, 8) := by decide

/-! ## Witnesses: for every statement with hypotheses, a state and operands that meet all of them -/

theorem witness_DecodeOfEncodeIsTheInstruction : (Instr.mrcCsor 13#4 15#4).wellFormed = true := by decide

theorem witness_EncodeOfDecodeIsTheWord : decodeWord 0xDE1FFFF1#32 = .ok (.mrcDbgEnclr 13#4 15#4) := by decide

theorem witness_WordIsARowExactlyOnItsMatchValue :
    (0x0E0F0F1E#32, Instr.mcrCsor) ∈ rows ∧ 0xEE0F2F1E#32 &&& 0x0FFF0FFF#32 = 0x0E0F0F1E#32 ∧
    (0xEE0F2F1E#32).extractLsb' 28 4 = 14#4 ∧ (0xEE0F2F1E#32).extractLsb' 12 4 = 2#4 := by
  refine ⟨?_, by decide, by decide, by decide⟩
  simp [rows]

theorem witness_BytesDecodeInEitherOrder : (Instr.mcrRstEnset 0#4 15#4).wellFormed = true := by decide

/-- The word `w` placed at the top of the address space, where the pc is two bytes below the end. -/
def atTop (w : Word) (x : Word) : State :=
  State.placeWord { st x with cpu := { (st x).cpu with pc := 0xFFFFFFFE#32 } } w

theorem witness_StepExecutesTheInstructionAtThePc :
    (atTop 0xEE0F0F11#32 1#32).resetAtProcessor = false ∧ ∀ k : Fin 4, Memory.read (atTop 0xEE0F0F11#32 1#32).cpu.mem
        ((atTop 0xEE0F0F11#32 1#32).cpu.pc + BitVec.ofNat 32 k).toNat =
      (encodeBytes (atTop 0xEE0F0F11#32 1#32).params.byteOrder (.mcrIrqEnset 14#4 0#4))[k]? := by decide

theorem witness_StepStopsByNameWithoutAnInstructionOfTheBlock :
    (st 0#32).resetAtProcessor = false ∧ (atTop 0xE1A00000#32 0#32).resetAtProcessor = false ∧
    Memory.read (st 0#32).cpu.mem ((st 0#32).cpu.pc + BitVec.ofNat 32 (3 : Fin 4)).toNat = none ∧
    decodeWord 0xE1A00000#32 = .error .notMine ∧
    ∀ k : Fin 4, Memory.read (atTop 0xE1A00000#32 0#32).cpu.mem
        ((atTop 0xE1A00000#32 0#32).cpu.pc + BitVec.ofNat 32 k).toNat =
      (bytesOfWord (atTop 0xE1A00000#32 0#32).params.byteOrder 0xE1A00000#32)[k]? := by decide

/-- Every counter overflowing, every enable set, and nVALRESET wired back to the processor's reset. -/
def wired (x : Word) : State :=
  { st x with
    rsten := allOn
    inputs := { (st x).inputs with ovf := ⟨true, true, true, true⟩ }
    params := { (st x).params with routing := { Routing.nowhere with resetToProcessor := true } } }

theorem witness_LoadedWordRunsNext : decodeTableWord 32 0x0E1F0F11 = some (.mrcIrqEnset 0#4 0#4) := by decide

theorem witness_EventsBetweenInstructionsDoWhatTheySay :
    (wired 0#32).resetAtProcessor = true ∧ (st 0#32).resetAtProcessor = false ∧ (st 0#32).env = [] ∧ State.env { st 0#32 with env := [.idle] } = .idle :: [] ∧
    State.env { st 0#32 with env := [.inputs (st 0#32).inputs, .idle] } = .inputs (st 0#32).inputs :: [.idle] ∧
    State.env { st 0#32 with env := [.processor (st 1#32).cpu (st 0#32).inputs] } =
      .processor (st 1#32).cpu (st 0#32).inputs :: [] ∧
    State.env { st 0#32 with env := [.reset (st 1#32).cpu (st 0#32).inputs] } =
      .reset (st 1#32).cpu (st 0#32).inputs :: [] := ⟨rfl, rfl, rfl, rfl, rfl, rfl, rfl⟩

/-- A run of one step: the write of `VAL_IRQ_ENSET` at the top of memory, after which the pc has wrapped. -/
theorem witness_NoRunChangesAParameter : ∃ t, Runs 1 (atTop 0xEE0F0F11#32 1#32) t ∧ t.cpu.pc = 2#32 :=
  ⟨_, ⟨_, rfl, rfl⟩, rfl⟩

theorem witness_EveryStepKeepsTheMachineInvariant :
    (atTop 0xEE0F0F1E#32 0x31#32).Inv ∧
    ∃ t, step (atTop 0xEE0F0F1E#32 0x31#32) = .next t ∧ t.cso = some ⟨.kB16, .kB8⟩ :=
  ⟨⟨(fun _ h => by cases h), (by decide), (fun _ h => by cases h)⟩, _, rfl, rfl⟩

/-- With an override in effect and inputs changing next. -/
def overridden (w : Word) : State :=
  { atTop w 1#32 with cso := some ⟨.kB4, .kB8⟩, env := [.inputs (user 0#32 true).inputs] }

theorem witness_OnlyResetRemovesTheOverride :
    (overridden 0xEE0F0F11#32).cso ≠ none ∧ (overridden 0xEE0F0F11#32).noResetNext ∧
    (overridden 0xEE0F0F11#32).resetAtProcessor = false ∧ ∃ t, step (overridden 0xEE0F0F11#32) = .next t ∧ t.inputs.userEn = true :=
  ⟨(by decide), (fun _ _ _ h => by cases h), rfl, _, rfl, rfl⟩

/-- Both ways a condition passes, both ways an access is permitted. -/
theorem witness_EnableReadsReturnTheCurrentSetting :
    (Passed 14#4 (st 0#32) ∧ Permitted (st 0#32)) ∧
    (Passed 0#4 { user 0#32 true with inputs := { (user 0#32 true).inputs with condsHeld := [0#4] } } ∧
      Permitted { user 0#32 true with inputs := { (user 0#32 true).inputs with condsHeld := [0#4] } }) := by
  simp [Passed, Permitted, st, user]

/-- Every LASTRD entry holding bit 3. -/
def allRead (x : Word) (p : SbzpPolicy) : State :=
  { st x with lastRd := Vector.replicate 8 (some 1#28), params := { (st x).params with sbzpPolicy := p } }

/-- The four Set registers, by zero and by preserved bits. -/
theorem witness_SetWritesEnableTheNamedCounters :
    Passed 14#4 (st 7#32) ∧ Permitted (st 7#32) ∧
    (∀ n ∈ [(0 : Fin 8), 1, 2, 3], Admitted (st 7#32) n (st 7#32).cpu.x[14]) ∧
    Passed 14#4 (allRead 0xD#32 .zeroOrPreserved) ∧ Permitted (allRead 0xD#32 .zeroOrPreserved) ∧
    (∀ n ∈ [(0 : Fin 8), 1, 2, 3],
      Admitted (allRead 0xD#32 .zeroOrPreserved) n (allRead 0xD#32 .zeroOrPreserved).cpu.x[14]) := by
  unfold Passed Permitted Admitted; decide

/-- The four Clear registers, by zero and by preserved bits. -/
theorem witness_ClearWritesDisableTheNamedCounters :
    Passed 14#4 (st 7#32) ∧ Permitted (st 7#32) ∧
    (∀ n ∈ [(4 : Fin 8), 5, 6, 7], Admitted (st 7#32) n (st 7#32).cpu.x[0]) ∧
    Passed 14#4 (allRead 0xD#32 .zeroOrPreserved) ∧ Permitted (allRead 0xD#32 .zeroOrPreserved) ∧
    (∀ n ∈ [(4 : Fin 8), 5, 6, 7],
      Admitted (allRead 0xD#32 .zeroOrPreserved) n (allRead 0xD#32 .zeroOrPreserved).cpu.x[0]) := by
  unfold Passed Permitted Admitted; decide

/-- Both outcomes: the same value is admitted under the one policy and refused under the other. -/
theorem witness_EnableWritesAreRefusedOnBadReservedBits :
    Instr.writes? (.mcrDbgEnclr 14#4 14#4) = some .dbgEnclr ∧ Instr.rd (.mcrDbgEnclr 14#4 14#4) = regNo 14 ∧
    Passed 14#4 (allRead 0xD#32 .zeroOnly) ∧ Permitted (allRead 0xD#32 .zeroOnly) ∧
    ¬ Admitted (allRead 0xD#32 .zeroOnly) (regNumber .dbgEnclr) (allRead 0xD#32 .zeroOnly).cpu.x[14] ∧
    Admitted (allRead 0xD#32 .zeroOrPreserved) (regNumber .dbgEnclr)
      (allRead 0xD#32 .zeroOrPreserved).cpu.x[14] := by
  unfold Passed Permitted Admitted; decide

/-- A write of the Set register, then a read of the Clear register, into another general register. -/
theorem witness_ReadsSeeEarlierWrites :
    Instr.writes? (.mcrFiqEnset 14#4 1#4) = some .fiqEnset ∧ Instr.reads? (.mrcFiqEnclr 14#4 2#4) = some .fiqEnclr ∧
    regKind .fiqEnclr = regKind .fiqEnset ∧ Instr.rd (.mcrFiqEnset 14#4 1#4) = regNo 1 ∧
    Instr.rd (.mrcFiqEnclr 14#4 2#4) = regNo 2 ∧ ∃ t u, Passed 14#4 (st 5#32) ∧ Passed 14#4 t ∧
    exec (.mcrFiqEnset 14#4 1#4) (st 5#32) = .next t ∧ exec (.mrcFiqEnclr 14#4 2#4) t = .next u :=
  ⟨rfl, rfl, rfl, rfl, rfl, _, _, .inl rfl, .inl rfl, rfl, rfl⟩

theorem witness_WritingBackAReadValueIsAdmitted :
    Instr.reads? (.mrcRstEnset 14#4 2#4) = some .rstEnset ∧ Instr.writes? (.mcrRstEnset 14#4 2#4) = some .rstEnset ∧
    Instr.rd (.mrcRstEnset 14#4 2#4) = regNo 2 ∧ Instr.rd (.mcrRstEnset 14#4 2#4) = regNo 2 ∧
    Passed 14#4 (st 0#32) ∧ Permitted (st 0#32) ∧ (st 0#32).params.sbzpPolicy = .zeroOrPreserved := by
  unfold Passed Permitted; decide

theorem witness_OverrideWriteSelectsTheTwoSizes :
    Passed 14#4 (st 0x31#32) ∧ (st 0x31#32).inputs.priv = true ∧
    (st 0x31#32).cpu.x[0] = 0#24 ++ cacheCode .kB16 ++ cacheCode .kB8 ∧
    CacheSize.kB16 ∈ (st 0x31#32).params.csoAllowedD ∧ CacheSize.kB8 ∈ (st 0x31#32).params.csoAllowedI := by
  unfold Passed; decide

/-- Each clause at a boundary: the lowest and the highest reserved bit, an unlisted code in either field, a listed
size not integrated in either field. -/
theorem witness_OverrideWriteIsRefusedOnBadValues :
    (Passed 14#4 (st 0x100#32) ∧ (st 0x100#32).inputs.priv = true) ∧
    ((st 0x100#32).cpu.x[0].extractLsb' 8 24 ≠ 0#24 ∧ (st 0x80000000#32).cpu.x[0].extractLsb' 8 24 ≠ 0#24) ∧
    ((st 0xE0#32).cpu.x[0].extractLsb' 8 24 = 0#24 ∧ cacheSize? ((st 0xE0#32).cpu.x[0].extractLsb' 4 4) = none) ∧
    ((st 0x02#32).cpu.x[0].extractLsb' 8 24 = 0#24 ∧ cacheSize? ((st 0x02#32).cpu.x[0].extractLsb' 0 4) = none) ∧
    ((st 0x71#32).cpu.x[0] = 0#24 ++ cacheCode .kB32 ++ cacheCode .kB8 ∧
      CacheSize.kB32 ∉ (st 0x71#32).params.csoAllowedD) ∧
    ((st 0x1F#32).cpu.x[0] = 0#24 ++ cacheCode .kB8 ++ cacheCode .kB64 ∧
      CacheSize.kB64 ∉ (st 0x1F#32).params.csoAllowedI) := by
  unfold Passed; decide

theorem witness_OverrideReadIsRefusedInEveryMode :
    Passed 14#4 (st 0#32) ∧ (st 0#32).inputs.priv = true ∧ Passed 14#4 (user 0#32 false) ∧
    (user 0#32 false).inputs.priv = false := by
  unfold Passed; decide

theorem witness_SizeCodesAreThoseOfTheTable :
    (st 0xE1#32).cpu.x[3] = 0#24 ++ 0b1110#4 ++ 0b0001#4 ∧ (st 0x12#32).cpu.x[3] = 0#24 ++ 0b0001#4 ++ 0b0010#4 ∧
    Passed 14#4 (st 0xE1#32) ∧ (st 0xE1#32).inputs.priv = true ∧
    Passed 14#4 (st 0x12#32) ∧ (st 0x12#32).inputs.priv = true := by
  unfold Passed; decide

theorem witness_OverrideReplacesTheImplementedSizes :
    (st 0#32).cso = none ∧ (overridden 0#32).cso = some ⟨.kB4, .kB8⟩ := by decide

theorem witness_FailedConditionOnlyAdvancesThePc :
    ¬ Passed (Instr.cond (.mcrCsor 13#4 0#4)) (st 0#32) ∧ ¬ Passed (Instr.cond (.mrcCsor 0#4 15#4)) (st 0#32) := by
  unfold Passed; decide

theorem witness_R15OperandIsRefused :
    (Instr.isEnableAccess (.mrcIrqEnset 14#4 15#4) = true ∧ Instr.rd (.mrcIrqEnset 14#4 15#4) = r15) ∧
    (Instr.isCsoWrite (.mcrCsor 14#4 15#4) = true ∧ Instr.rd (.mcrCsor 14#4 15#4) = r15) ∧
    Passed 14#4 (user 0#32 false) := by
  unfold Passed; decide

/-- Both ways an access is denied. -/
theorem witness_OnlyDeniedAccessesRaiseUndefined :
    (Passed 14#4 (user 0#32 false) ∧ Instr.rd (.mrcDbgEnclr 14#4 14#4) ≠ r15 ∧
      Instr.isEnableAccess (.mrcDbgEnclr 14#4 14#4) = true ∧ ¬ Permitted (user 0#32 false)) ∧
    (Passed 14#4 (user 0#32 true) ∧ Instr.rd (.mcrCsor 14#4 0#4) ≠ r15 ∧
      Instr.isCsoWrite (.mcrCsor 14#4 0#4) = true ∧ (user 0#32 true).inputs.priv = false) := by
  unfold Passed Permitted; decide

/-- With the permission a write completes; without it only an access whose condition has failed does. -/
theorem witness_UnprivilegedCodeReachesOnlyWhatIsPermitted :
    (user 7#32 true).inputs.priv = false ∧
    (∃ t, exec (.mcrIrqEnset 14#4 0#4) (user 7#32 true) = .next t ∧ t.irqen = m4 false true true true) ∧
    (user 7#32 false).inputs.priv = false ∧ (user 7#32 false).inputs.userEn = false ∧
    (∃ t, exec (.mcrIrqEnset 0#4 0#4) (user 7#32 false) = .next t ∧ t.cpu.pc = 4#32) :=
  ⟨rfl, ⟨_, rfl, rfl⟩, rfl, rfl, _, rfl, rfl⟩

/-- A write, which leaves the other kinds alone, and an access that is not the write of `VAL_CSOR`. -/
theorem witness_MasksAndOverrideAreIndependent :
    (∃ t, exec (.mcrIrqEnset 14#4 0#4) (st 7#32) = .next t) ∧
    (∀ reg, Instr.writes? (.mcrIrqEnset 14#4 0#4) = some reg → regKind reg ≠ .dbg) ∧
    Instr.isCsoWrite (.mcrIrqEnset 14#4 0#4) = false :=
  ⟨⟨_, rfl⟩, (fun _ h => by cases h; decide), rfl⟩

/-- A read, which leaves the other general registers and LASTRD entries alone; and a write, which leaves all. -/
theorem witness_AccessesHaveNoOtherSideEffects :
    (∃ t, exec (.mrcIrqEnset 14#4 0#4) (st 7#32) = .next t) ∧ Instr.rd (.mrcIrqEnset 14#4 0#4) ≠ regNo 14 ∧
    (∀ reg, Instr.reads? (.mrcIrqEnset 14#4 0#4) = some reg → regNumber reg ≠ 7) ∧
    (∃ t, exec (.mcrIrqEnset 14#4 0#4) (st 7#32) = .next t) ∧ Instr.reads? (.mcrIrqEnset 14#4 0#4) = none ∧
    (∀ reg, Instr.reads? (.mcrIrqEnset 14#4 0#4) = some reg → regNumber reg ≠ 0) :=
  ⟨⟨_, rfl⟩, (by decide), (fun _ h => by cases h; decide), ⟨_, rfl⟩, rfl, (fun _ h => by cases h)⟩

/-- Every kind requesting, and none. -/
def asking (e : EnableMask) : State :=
  { st 0x80000007#32 with
    irqen := e, fiqen := e, rsten := e, dbgen := e,
    inputs := { (st 0#32).inputs with ovf := ⟨true, true, true, true⟩ } }

theorem witness_SignalLevelsFollowThePolarityTable :
    ((asking allOn).irqReq = true ∧ (asking allOn).fiqReq = true ∧ (asking allOn).rstReq = true ∧
      (asking allOn).dbgReq = true) ∧
    ((asking allOff).irqReq = false ∧ (asking allOff).fiqReq = false ∧ (asking allOff).rstReq = false ∧
      (asking allOff).dbgReq = false) := by decide

theorem witness_EachMaskAssertsItsSignalAndIsReachedThroughItsPair :
    (Meets (asking allOn).irqen (asking allOn).inputs.ovf ∧ Meets (asking allOn).fiqen (asking allOn).inputs.ovf ∧
      Meets (asking allOn).rsten (asking allOn).inputs.ovf ∧ Meets (asking allOn).dbgen (asking allOn).inputs.ovf) ∧
    (asking allOn).inputs.priv = true ∧ (asking allOn).cpu.x[0] = 0x80000007#32 := by
  unfold Meets; decide

/-- The bit of each of the four counters, each alone. -/
theorem witness_EnablingDuringOverflowAssertsAtOnce :
    Instr.writes? (.mcrRstEnset 14#4 0#4) = some .rstEnset ∧ regPort .rstEnset = .set ∧
    Instr.rd (.mcrRstEnset 14#4 0#4) = regNo 0 ∧ Passed 14#4 (asking allOff) ∧
    (∃ t, exec (.mcrRstEnset 14#4 0#4) (asking allOff) = .next t) ∧
    ((asking allOff).cpu.x[(0 : Fin 15)].getLsbD 31 && (asking allOff).inputs.ovf.c) = true ∧
    ((asking allOff).cpu.x[(0 : Fin 15)].getLsbD 2 && (asking allOff).inputs.ovf.p2) = true ∧
    ((asking allOff).cpu.x[(0 : Fin 15)].getLsbD 1 && (asking allOff).inputs.ovf.p1) = true ∧
    ((asking allOff).cpu.x[(0 : Fin 15)].getLsbD 0 && (asking allOff).inputs.ovf.p0) = true :=
  ⟨rfl, rfl, rfl, .inl rfl, ⟨_, rfl⟩, by decide, by decide, by decide, by decide⟩

theorem witness_ClearingAllEnablesDeassertsForEveryOverflow :
    Instr.writes? (.mcrDbgEnclr 14#4 14#4) = some .dbgEnclr ∧ regPort .dbgEnclr = .clr ∧
    Instr.rd (.mcrDbgEnclr 14#4 14#4) = regNo 14 ∧ Passed 14#4 (asking allOn) ∧ Permitted (asking allOn) ∧
    (asking allOn).cpu.x[14] = 0x80000007#32 := by
  unfold Passed Permitted; decide

/-- Both disjuncts: the same reset wire, with a request there; and no request before or after any instruction. -/
theorem witness_RoutingFeedsBackOnlyThroughTheResetWire :
    ((⟨true, true, true, true, true, true, true, true⟩ : Routing).resetToProcessor =
      (wired 0#32).params.routing.resetToProcessor ∧ (wired 0#32).nValReset = .low) ∧
    (st 0#32).nValReset = .high ∧ ∀ i t, exec i (st 0#32) = .next t → t.nValReset = .high := by
  refine ⟨by decide, by decide, fun i t h => ?_⟩
  have ht : t.inputs = (st 0#32).inputs := by
    rcases exec_next_cases h with ⟨-, rfl⟩ | ⟨-, _, _, -, -, -, rfl⟩ | ⟨-, _, _, -, -, -, -, rfl⟩ |
      ⟨-, -, _, _, -, -, -, rfl⟩ <;> simp
  simp [State.nValReset, State.rstReq, ht, st, requested, activeLow]

theorem witness_WiredResetRequestResetsTheBlock :
    (wired 0#32).params.routing.resetToProcessor = true ∧ (wired 0#32).nValReset = .low := by decide

/-- D13, R136: the wired reset takes the override away; with the signal routed nowhere the instruction placed runs and
the override stays. -/
theorem test_wired_reset :
    (nextOf (step { (wired 0#32).placeWord 0xEE0F0F11#32 with
      cso := some ⟨.kB4, .kB8⟩
      params := { (wired 0#32).params with routing := .nowhere } })).map (fun t => t.cso) =
      some (some ⟨.kB4, .kB8⟩) ∧
    (State.wiredReset { wired 0#32 with cso := some ⟨.kB4, .kB8⟩ }).cso = none := by decide

/-- The word of `MCR p15, 0, r0, c15, c1, 2` at the pc, the enables not set yet, r0 naming CCNT alone. -/
def arming : State := { (wired 0x80000000#32).placeWord 0xEE0F0F51#32 with rsten := allOff }

theorem witness_EnablingAWiredResetRequestMakesTheNextEventAReset :
    arming.resetAtProcessor = false ∧ arming.params.routing.resetToProcessor = true ∧ Passed 14#4 arming ∧
    Permitted arming ∧ Admitted arming 2 arming.cpu.x[(0 : Fin 15)] ∧ (14#4 : Cond) ≠ 15#4 ∧
    (∀ k : Fin 4, Memory.read arming.cpu.mem (arming.cpu.pc + BitVec.ofNat 32 k).toNat =
      (encodeBytes arming.params.byteOrder (.mcrRstEnset 14#4 (regNo 0)))[k]?) ∧
    (arming.cpu.x[(0 : Fin 15)].getLsbD 31 && arming.inputs.ovf.c) = true := by
  unfold Passed Permitted Admitted; decide

/-- A write through each of the two registers of a mask that changes it. -/
theorem witness_EachMaskIsReachedThroughExactlyItsTwoRegisters :
    regNumber .fiqEnset = (pairNumbers .fiq).1 ∧ regNumber .fiqEnclr = (pairNumbers .fiq).2 ∧
    (∃ t, exec (.mcrFiqEnset 14#4 0#4) (st 7#32) = .next t ∧ t.mask .fiq ≠ (st 7#32).mask .fiq) ∧
    (∃ t, exec (.mcrFiqEnclr 14#4 0#4) (asking allOn) = .next t ∧ t.mask .fiq ≠ (asking allOn).mask .fiq) ∧
    Meets (asking allOn).irqen (asking allOn).inputs.ovf :=
  ⟨rfl, rfl, ⟨_, rfl, by decide⟩, ⟨_, rfl, by decide⟩, .inl ⟨rfl, rfl⟩⟩

theorem witness_OverrideWriteIsIndependent :
    (∃ t, exec (.mcrCsor 14#4 0#4) (st 0x31#32) = .next t) ∧
    Instr.isEnableAccess (.mrcRstEnclr 14#4 0#4) = true ∧
    (∃ t, exec (.mrcRstEnclr 14#4 0#4) (st 0x31#32) = .next t) := ⟨⟨_, rfl⟩, rfl, _, rfl⟩

theorem witness_AccessesPerformNoMemoryAccess :
    ∃ t, exec (.mcrDbgEnclr 14#4 0#4) (atTop 0xEE0F0F11#32 7#32) = .next t ∧ t.cpu.mem ≠ [] :=
  ⟨_, rfl, by decide⟩

/-- Each clause: a write and another kind, a read, and a counter enabled in two masks (R94's example). -/
theorem witness_TheFourMasksAreSeparate :
    Instr.writes? (.mcrIrqEnclr 14#4 0#4) = some .irqEnclr ∧ Kind.dbg ≠ regKind .irqEnclr ∧
    (∃ t, exec (.mcrIrqEnclr 14#4 0#4) (asking allOn) = .next t) ∧
    Instr.isEnableAccess (.mrcFiqEnset 14#4 0#4) = true ∧ (∃ t, exec (.mrcFiqEnset 14#4 0#4) (st 0#32) = .next t) ∧
    Meets (m4 true false false false) ⟨true, false, false, false⟩ :=
  ⟨rfl, by decide, ⟨_, rfl⟩, rfl, ⟨_, rfl⟩, .inl ⟨rfl, rfl⟩⟩

end Sys2Proof.Tests
end

section
/-! PROOFS of the family 20_memory: an access neither reads nor writes memory (20_memory.md R49). The changes of a state
that no access can see are one notion, `UnseenByAccesses`; `exec` commutes with each of them. -/

namespace Sys2Proof.Machine

open Sys2Proof.Claims

/-! ## What an access writes -/

/-- No completed instruction writes memory. -/
theorem exec_keeps_mem {i : Instr} {s t : State} (h : exec i s = .next t) : t.cpu.mem = s.cpu.mem := by
  rcases exec_next_cases h with ⟨-, rfl⟩ | ⟨-, reg, r, -, -, -, rfl⟩ | ⟨-, reg, r, -, -, -, -, rfl⟩ |
    ⟨-, -, r, o, -, -, -, rfl⟩
  · exact advance_mem s
  · exact readEffect_mem reg r s
  · exact writeEffect_mem reg (s.getX r) s
  · simp

/-! ## What an access consults -/

/-- `f` changes only what no access consults and no access writes: every check of an access comes out as before, and
every effect of an access commutes with `f`. -/
structure UnseenByAccesses (f : State → State) : Prop where
  condPassed  : ∀ c s, condPassed c (f s) = condPassed c s
  enAccessOk  : ∀ s, enAccessOk (f s) = enAccessOk s
  csoAccessOk : ∀ s, csoAccessOk (f s) = csoAccessOk s
  getX        : ∀ s r, (f s).getX r = s.getX r
  lastRead    : ∀ s reg, (f s).lastRead reg = s.lastRead reg
  sbzpPolicy  : ∀ s, (f s).params.sbzpPolicy = s.params.sbzpPolicy
  csoValue    : ∀ s v, csoValue (f s).params v = csoValue s.params v
  advance     : ∀ s, (f s).advance = f s.advance
  readEffect  : ∀ reg r s, readEffect reg r (f s) = f (readEffect reg r s)
  writeEffect : ∀ reg v s, writeEffect reg v (f s) = f (writeEffect reg v s)
  setCso      : ∀ s o, (f s).setCso o = f (s.setCso o)

namespace UnseenByAccesses
variable {f : State → State}

theorem whenPassed_commutes (hf : UnseenByAccesses f) (c : Cond) (s : State) {a b : Answer} (h : b = mapNext f a) :
    whenPassed c (f s) b = mapNext f (whenPassed c s a) := by
  cases hp : Machine.condPassed c s with
  | true => rw [whenPassed_of_passed b ((hf.condPassed c s).trans hp), whenPassed_of_passed a hp, h]
  | false =>
    rw [whenPassed_of_failed b ((hf.condPassed c s).trans hp), whenPassed_of_failed a hp, hf.advance]
    rfl

theorem readEn_commutes (hf : UnseenByAccesses f) (reg : EnReg) (d : Reg) (s : State) :
    readEn reg d (f s) = mapNext f (readEn reg d s) := by
  cases h : readEn reg d s with
  | next t =>
    obtain ⟨r, hd, hok, rfl⟩ := readEn_next.mp h
    exact readEn_next.mpr ⟨r, hd, (hf.enAccessOk s).trans hok, (hf.readEffect reg r s).symm⟩
  | fault q => exact readEn_fault.mpr ((hf.enAccessOk s).symm ▸ readEn_fault.mp h)
  | refused q => exact readEn_refused.mpr (readEn_refused.mp h)

theorem writeEn_commutes (hf : UnseenByAccesses f) (reg : EnReg) (d : Reg) (s : State) :
    writeEn reg d (f s) = mapNext f (writeEn reg d s) := by
  cases h : writeEn reg d s with
  | next t =>
    obtain ⟨r, hd, hok, hadm, rfl⟩ := writeEn_next.mp h
    refine writeEn_next.mpr ⟨r, hd, (hf.enAccessOk s).trans hok, ?_, ?_⟩
    · rw [hf.sbzpPolicy, hf.lastRead, hf.getX, hadm]
    · rw [hf.getX, hf.writeEffect]
  | fault q => exact writeEn_fault.mpr ((hf.enAccessOk s).symm ▸ writeEn_fault.mp h)
  | refused q =>
    refine writeEn_refused.mpr ?_
    simp only [hf.enAccessOk, hf.sbzpPolicy, hf.lastRead, hf.getX]
    exact writeEn_refused.mp h

theorem writeCso_commutes (hf : UnseenByAccesses f) (d : Reg) (s : State) :
    writeCso d (f s) = mapNext f (writeCso d s) := by
  cases h : writeCso d s with
  | next t =>
    obtain ⟨r, o, hd, hok, hval, rfl⟩ := writeCso_next.mp h
    refine writeCso_next.mpr ⟨r, o, hd, (hf.csoAccessOk s).trans hok, ?_, ?_⟩
    · rw [hf.csoValue, hf.getX, hval]
    · rw [hf.setCso, hf.advance]
  | fault q => exact writeCso_fault.mpr ((hf.csoAccessOk s).symm ▸ writeCso_fault.mp h)
  | refused q =>
    refine writeCso_refused.mpr ?_
    simp only [hf.csoAccessOk, hf.csoValue, hf.getX]
    exact writeCso_refused.mp h

/-- Noninterference: from a state changed where no access looks, every instruction gives the same answer, its next state
changed in the same way. -/
theorem exec_commutes (hf : UnseenByAccesses f) (i : Instr) (s : State) : exec i (f s) = mapNext f (exec i s) := by
  rcases instr_cases i with ⟨reg, hi⟩ | ⟨reg, hi⟩ | ⟨c, d, rfl⟩ | ⟨c, d, rfl⟩
  · rw [exec_of_reads _ hi, exec_of_reads _ hi]
    exact hf.whenPassed_commutes _ s (hf.readEn_commutes reg i.rd s)
  · rw [exec_of_writes _ hi, exec_of_writes _ hi]
    exact hf.whenPassed_commutes _ s (hf.writeEn_commutes reg i.rd s)
  · exact hf.whenPassed_commutes c s (hf.writeCso_commutes d s)
  · exact hf.whenPassed_commutes c s rfl

end UnseenByAccesses

/-! ## Memory and the byte order are unseen -/

/-- The state with other bytes in memory and another byte order of instruction words. -/
def State.withMemory (m : Memory) (o : ByteOrder) (s : State) : State :=
  { s with cpu := { s.cpu with mem := m }, params := { s.params with byteOrder := o } }

/-- A write changes one of four fields; which one depends on its register, so the split is over the registers. -/
theorem writeEffect_withMemory (m : Memory) (o : ByteOrder) (reg : EnReg) (v : Word) (s : State) :
    writeEffect reg v (s.withMemory m o) = (writeEffect reg v s).withMemory m o := by
  cases reg <;> rfl

theorem unseenByAccesses_withMemory (m : Memory) (o : ByteOrder) : UnseenByAccesses (State.withMemory m o) where
  condPassed _ _ := rfl
  enAccessOk _ := rfl
  csoAccessOk _ := rfl
  getX _ _ := rfl
  lastRead _ _ := rfl
  sbzpPolicy _ := rfl
  csoValue _ _ := rfl
  advance _ := rfl
  readEffect _ _ _ := rfl
  writeEffect := writeEffect_withMemory m o
  setCso _ _ := rfl

/-- Settles O48: memory is kept by every completed instruction, and memory and byte order are unseen by all. -/
theorem accessesPerformNoMemoryAccess : Obligations.AccessesPerformNoMemoryAccess := by
  unfold Obligations.AccessesPerformNoMemoryAccess
  constructor
  · intro i s t h a
    rw [exec_keeps_mem h]
  · intro i s m o
    exact (unseenByAccesses_withMemory m o).exec_commutes i s

end Sys2Proof.Machine
end

section
/-! PROOFS of the family 60_exceptions: the signals' levels (60_exceptions.md R117). Each level of a polarity stands for one
value of its request. -/

namespace Sys2Proof.Machine

/-! ## The two polarities -/

@[simp] theorem activeLow_eq_low_iff {request : Bool} : activeLow request = .low ↔ request = true := by
  cases request <;> decide

@[simp] theorem activeLow_eq_high_iff {request : Bool} : activeLow request = .high ↔ request = false := by
  cases request <;> decide

@[simp] theorem activeHigh_eq_high_iff {request : Bool} : activeHigh request = .high ↔ request = true := by
  cases request <;> decide

@[simp] theorem activeHigh_eq_low_iff {request : Bool} : activeHigh request = .low ↔ request = false := by
  cases request <;> decide

/-! ## The table of R117 -/

/-- Settles O37: three signals are `activeLow` of their request, VALEDBGRQ is `activeHigh` of its own. -/
theorem signalLevelsFollowThePolarityTable : Obligations.SignalLevelsFollowThePolarityTable := by
  unfold Obligations.SignalLevelsFollowThePolarityTable
  intro s
  exact ⟨activeLow_eq_low_iff.mpr, activeLow_eq_high_iff.mpr,
    activeLow_eq_low_iff.mpr, activeLow_eq_high_iff.mpr,
    activeLow_eq_low_iff.mpr, activeLow_eq_high_iff.mpr,
    activeHigh_eq_high_iff.mpr, activeHigh_eq_low_iff.mpr⟩

end Sys2Proof.Machine
end

section
/-! PROOFS, encoding (30_encoding.md): a word is accepted exactly on its row's match value, and then it is the
encoding of the instruction it gives. -/

namespace Sys2Proof.Machine

open Sys2Proof.Claims Sys2Proof.Laws

/-! ## Instructions by the register they access -/

theorem eq_readOf {i : Instr} {reg : EnReg} (h : i.reads? = some reg) : i = .readOf reg i.cond i.rd := by
  cases i <;> simp [Instr.reads?] at h <;> subst h <;> rfl

theorem eq_writeOf {i : Instr} {reg : EnReg} (h : i.writes? = some reg) : i = .writeOf reg i.cond i.rd := by
  cases i <;> simp [Instr.writes?] at h <;> subst h <;> rfl

@[simp] theorem readOf_cond (reg : EnReg) (c : Cond) (d : Reg) : (Instr.readOf reg c d).cond = c := by
  cases reg <;> rfl

@[simp] theorem writeOf_cond (reg : EnReg) (c : Cond) (d : Reg) : (Instr.writeOf reg c d).cond = c := by
  cases reg <;> rfl

@[simp] theorem readOf_rd (reg : EnReg) (c : Cond) (d : Reg) : (Instr.readOf reg c d).rd = d := by
  cases reg <;> rfl

@[simp] theorem writeOf_rd (reg : EnReg) (c : Cond) (d : Reg) : (Instr.writeOf reg c d).rd = d := by
  cases reg <;> rfl

@[simp] theorem writeOf_writes? (reg : EnReg) (c : Cond) (d : Reg) : (Instr.writeOf reg c d).writes? = some reg := by
  cases reg <;> rfl

theorem exists_ofOpc2 (reg : EnReg) : ∃ o : BitVec 3, EnReg.ofOpc2 o = reg :=
  match reg with
  | .irqEnset => ⟨0#3, rfl⟩
  | .fiqEnset => ⟨1#3, rfl⟩
  | .rstEnset => ⟨2#3, rfl⟩
  | .dbgEnset => ⟨3#3, rfl⟩
  | .irqEnclr => ⟨4#3, rfl⟩
  | .fiqEnclr => ⟨5#3, rfl⟩
  | .rstEnclr => ⟨6#3, rfl⟩
  | .dbgEnclr => ⟨7#3, rfl⟩

theorem wellFormed_iff {i : Instr} : i.wellFormed = true ↔ i.cond ≠ 15#4 := by
  simp [Instr.wellFormed]

/-! ## What the decoder reads -/

/-- The family `FixedBits` as one statement. -/
theorem fixedBits (i : Instr) : FixedBits.Statement i :=
  match i with
  | .mrcIrqEnset c d => FixedBits.mrcIrqEnset c d
  | .mcrIrqEnset c d => FixedBits.mcrIrqEnset c d
  | .mrcFiqEnset c d => FixedBits.mrcFiqEnset c d
  | .mcrFiqEnset c d => FixedBits.mcrFiqEnset c d
  | .mrcRstEnset c d => FixedBits.mrcRstEnset c d
  | .mcrRstEnset c d => FixedBits.mcrRstEnset c d
  | .mrcDbgEnset c d => FixedBits.mrcDbgEnset c d
  | .mcrDbgEnset c d => FixedBits.mcrDbgEnset c d
  | .mrcIrqEnclr c d => FixedBits.mrcIrqEnclr c d
  | .mcrIrqEnclr c d => FixedBits.mcrIrqEnclr c d
  | .mrcFiqEnclr c d => FixedBits.mrcFiqEnclr c d
  | .mcrFiqEnclr c d => FixedBits.mcrFiqEnclr c d
  | .mrcRstEnclr c d => FixedBits.mrcRstEnclr c d
  | .mcrRstEnclr c d => FixedBits.mcrRstEnclr c d
  | .mrcDbgEnclr c d => FixedBits.mrcDbgEnclr c d
  | .mcrDbgEnclr c d => FixedBits.mcrDbgEnclr c d
  | .mcrCsor c d => FixedBits.mcrCsor c d
  | .mrcCsor c d => FixedBits.mrcCsor c d

/-- The fields of a word other than the condition and Rd are those of its fixed bits: CRn, CRm, opc2, L, the rest. -/
theorem fields_of_fixedBits {w m : Word} (h : w &&& 0x0FFF0FFF#32 = m) :
    w.extractLsb' 16 4 = m.extractLsb' 16 4 ∧ w.extractLsb' 0 4 = m.extractLsb' 0 4 ∧
      w.extractLsb' 5 3 = m.extractLsb' 5 3 ∧ w.getLsbD 20 = m.getLsbD 20 ∧
      w &&& 0x0FEF0F10#32 = m &&& 0x0FEF0F10#32 := by
  have hn : (0x0FFF0FFF#32).extractLsb' 16 4 = BitVec.allOnes 4 := by decide
  have hm : (0x0FFF0FFF#32).extractLsb' 0 4 = BitVec.allOnes 4 := by decide
  have ho : (0x0FFF0FFF#32).extractLsb' 5 3 = BitVec.allOnes 3 := by decide
  have hf : 0x0FFF0FFF#32 &&& 0x0FEF0F10#32 = 0x0FEF0F10#32 := by decide
  subst h
  refine ⟨?_, ?_, ?_, by simp, ?_⟩
  · rw [BitVec.extractLsb'_and, hn, BitVec.and_allOnes]
  · rw [BitVec.extractLsb'_and, hm, BitVec.and_allOnes]
  · rw [BitVec.extractLsb'_and, ho, BitVec.and_allOnes]
  · rw [BitVec.and_assoc, hf]

/-- The same fields of the match value of an enable register's row, as `rowMatch_enable` puts them together. -/
theorem fields_of_rowMatch_enable (o : BitVec 3) (l : Bool) (c : Cond) (d : Reg) {m : Word}
    (h : m = (if l then Instr.readOf (.ofOpc2 o) c d else .writeOf (.ofOpc2 o) c d).rowMatch) :
    m.extractLsb' 16 4 = 15#4 ∧ m.extractLsb' 0 4 = 1#4 ∧ m.extractLsb' 5 3 = o ∧ m.getLsbD 20 = l ∧
      m &&& 0x0FEF0F10#32 = 0x0E0F0F10#32 := by
  rw [rowMatch_enable] at h
  subst h
  clear c d
  revert o l
  decide

/-- A word with an enable register's match value and a condition other than b1111 is its read or its write. -/
theorem decodeWord_of_enable (o : BitVec 3) (l : Bool) {w : Word} {c : Cond} {d : Reg} (hc : w.extractLsb' 28 4 = c)
    (hd : w.extractLsb' 12 4 = d) (hne : c ≠ 15#4)
    (hrow : w &&& 0x0FFF0FFF#32 = (if l then Instr.readOf (.ofOpc2 o) c d else .writeOf (.ofOpc2 o) c d).rowMatch) :
    decodeWord w = .ok (if l then .readOf (.ofOpc2 o) c d else .writeOf (.ofOpc2 o) c d) := by
  obtain ⟨-, hcrm, hopc2, hl, hfix⟩ := fields_of_fixedBits hrow
  obtain ⟨-, hcrm', hopc2', hl', hfix'⟩ := fields_of_rowMatch_enable o l c d rfl
  simp only [decodeWord, hc, hd, hcrm, hopc2, hl, hfix, hcrm', hopc2', hl', hfix', hne]
  simp

/-- The two instructions of `VAL_CSOR` have the match values of their rows (R63): L in its place. -/
theorem rowMatch_csor (l : Bool) (c : Cond) (d : Reg) :
    (if l then Instr.mrcCsor c d else .mcrCsor c d).rowMatch =
      0x0E0F0F10#32 ||| (BitVec.ofBool l).setWidth 32 <<< 20 ||| (0#3).setWidth 32 <<< 5 ||| (14#4).setWidth 32 := by
  cases l <;> rfl

theorem fields_of_rowMatch_csor (l : Bool) (c : Cond) (d : Reg) {m : Word}
    (h : m = (if l then Instr.mrcCsor c d else .mcrCsor c d).rowMatch) :
    m.extractLsb' 0 4 = 14#4 ∧ m.extractLsb' 5 3 = 0#3 ∧ m.getLsbD 20 = l ∧
      m &&& 0x0FEF0F10#32 = 0x0E0F0F10#32 := by
  rw [rowMatch_csor] at h
  subst h
  clear c d
  revert l
  decide

/-- A word with a match value of `VAL_CSOR` and a condition other than b1111 is its read or its write. -/
theorem decodeWord_of_csor (l : Bool) {w : Word} {c : Cond} {d : Reg} (hc : w.extractLsb' 28 4 = c)
    (hd : w.extractLsb' 12 4 = d) (hne : c ≠ 15#4)
    (hrow : w &&& 0x0FFF0FFF#32 = (if l then Instr.mrcCsor c d else .mcrCsor c d).rowMatch) :
    decodeWord w = .ok (if l then .mrcCsor c d else .mcrCsor c d) := by
  obtain ⟨-, hcrm, hopc2, hl, hfix⟩ := fields_of_fixedBits hrow
  obtain ⟨hcrm', hopc2', hl', hfix'⟩ := fields_of_rowMatch_csor l c d rfl
  simp only [decodeWord, hc, hd, hcrm, hopc2, hl, hfix, hcrm', hopc2', hl', hfix', hne]
  simp

/-- A word with a row's match value and a condition other than b1111 is that row's instruction. -/
theorem decodeWord_of_row {w : Word} {i : Instr} (hrow : w &&& 0x0FFF0FFF#32 = i.rowMatch)
    (hc : w.extractLsb' 28 4 = i.cond) (hd : w.extractLsb' 12 4 = i.rd) (hne : i.cond ≠ 15#4) :
    decodeWord w = .ok i := by
  rcases instr_cases i with ⟨reg, hi⟩ | ⟨reg, hi⟩ | ⟨c, d, rfl⟩ | ⟨c, d, rfl⟩
  · obtain ⟨o, rfl⟩ := exists_ofOpc2 reg
    rw [eq_readOf hi] at hrow ⊢
    exact decodeWord_of_enable o true hc hd hne hrow
  · obtain ⟨o, rfl⟩ := exists_ofOpc2 reg
    rw [eq_writeOf hi] at hrow ⊢
    exact decodeWord_of_enable o false hc hd hne hrow
  · exact decodeWord_of_csor false hc hd hne hrow
  · exact decodeWord_of_csor true hc hd hne hrow

/-! ## Encode and decode are inverse -/

theorem decodeWord_encode {i : Instr} (h : i.wellFormed = true) : decodeWord (encode i) = .ok i := by
  obtain ⟨hrow, hc, hd⟩ := fixedBits i
  exact decodeWord_of_row hrow hc hd (wellFormed_iff.mp h)

/-- Everything the decoder accepts: an access of an enable register (CRm 1) or of the override (CRm 14, opc2 0). -/
theorem decodeWord_ok_cases {w : Word} {i : Instr} (h : decodeWord w = .ok i) :
    w.extractLsb' 28 4 ≠ 15#4 ∧ w &&& 0x0FEF0F10#32 = 0x0E0F0F10#32 ∧
    ((w.extractLsb' 0 4 = 1#4 ∧ i =
        if w.getLsbD 20 then .readOf (.ofOpc2 (w.extractLsb' 5 3)) (w.extractLsb' 28 4) (w.extractLsb' 12 4)
        else .writeOf (.ofOpc2 (w.extractLsb' 5 3)) (w.extractLsb' 28 4) (w.extractLsb' 12 4)) ∨
      (w.extractLsb' 0 4 = 14#4 ∧ w.extractLsb' 5 3 = 0#3 ∧ i =
        if w.getLsbD 20 then .mrcCsor (w.extractLsb' 28 4) (w.extractLsb' 12 4)
        else .mcrCsor (w.extractLsb' 28 4) (w.extractLsb' 12 4))) := by
  simp only [decodeWord] at h
  split at h
  · cases h
  · next hmine =>
    obtain ⟨hc, hfix⟩ := not_or.mp hmine
    refine ⟨hc, not_not.mp hfix, ?_⟩
    split at h
    · next hcrm => exact .inl ⟨hcrm, by simpa using h.symm⟩
    · split at h
      · next hcsor => exact .inr ⟨hcsor.1, hcsor.2, by simpa using h.symm⟩
      · cases h

/-- The fields of an accepted instruction are those of its word. -/
theorem decodeWord_ok_fields {w : Word} {i : Instr} (h : decodeWord w = .ok i) :
    i.cond = w.extractLsb' 28 4 ∧ i.rd = w.extractLsb' 12 4 ∧
      i.rowMatch = (w &&& 0x0FEF0F10#32) ||| (BitVec.ofBool (w.getLsbD 20)).setWidth 32 <<< 20 |||
        (w.extractLsb' 5 3).setWidth 32 <<< 5 ||| (w.extractLsb' 0 4).setWidth 32 := by
  obtain ⟨-, hfix, ⟨hcrm, rfl⟩ | ⟨hcrm, hopc2, rfl⟩⟩ := decodeWord_ok_cases h
  · refine ⟨?_, ?_, ?_⟩
    · split <;> simp
    · split <;> simp
    · rw [rowMatch_enable, hfix, hcrm]
  · refine ⟨?_, ?_, ?_⟩
    · split <;> rfl
    · split <;> rfl
    · rw [rowMatch_csor, hfix, hcrm, hopc2]

theorem encode_of_decodeWord {w : Word} {i : Instr} (h : decodeWord w = .ok i) :
    i.wellFormed = true ∧ encode i = w := by
  obtain ⟨hc, hd, hrow⟩ := decodeWord_ok_fields h
  obtain ⟨hne, -⟩ := decodeWord_ok_cases h
  refine ⟨wellFormed_iff.mpr (hc ▸ hne), ?_⟩
  rw [encode, hc, hd, hrow]
  exact (word_eq_fields w).symm

/-- Settles O2: the word of an instruction has its row's match value and its two fields. -/
theorem decodeOfEncodeIsTheInstruction : Obligations.DecodeOfEncodeIsTheInstruction := by
  unfold Obligations.DecodeOfEncodeIsTheInstruction
  intro i h
  exact decodeWord_encode h

/-- Settles O3: the fields of an accepted word are those of its instruction, and a word is its fields. -/
theorem encodeOfDecodeIsTheWord : Obligations.EncodeOfDecodeIsTheWord := by
  unfold Obligations.EncodeOfDecodeIsTheWord
  intro w i h
  exact encode_of_decodeWord h

/-! ## The table of R63 -/

/-- A row of the table is its instruction's match value, at any fields. -/
theorem fields_of_mem_rows {row : Word × (Cond → Reg → Instr)} (h : row ∈ rows) (c : Cond) (d : Reg) :
    (row.2 c d).rowMatch = row.1 ∧ (row.2 c d).cond = c ∧ (row.2 c d).rd = d := by
  revert row
  simp [rows, Instr.rowMatch, Instr.cond, Instr.rd]

theorem exists_mem_rows (i : Instr) : ∃ row ∈ rows, i = row.2 i.cond i.rd := by
  cases i <;> simp [rows, Instr.cond, Instr.rd]

theorem decodeWord_row_iff {w : Word} {row : Word × (Cond → Reg → Instr)} (h : row ∈ rows) (c : Cond) (d : Reg) :
    decodeWord w = .ok (row.2 c d) ↔ (w &&& 0x0FFF0FFF#32 = row.1 ∧ w.extractLsb' 28 4 ≠ 15#4 ∧
      c = w.extractLsb' 28 4 ∧ d = w.extractLsb' 12 4) := by
  obtain ⟨hrow, hc, hd⟩ := fields_of_mem_rows h c d
  constructor
  · intro hw
    obtain ⟨hwf, rfl⟩ := encode_of_decodeWord hw
    obtain ⟨hrow', hc', hd'⟩ := fixedBits (row.2 c d)
    exact ⟨hrow'.trans hrow, hc' ▸ wellFormed_iff.mp hwf, hc.symm.trans hc'.symm, hd.symm.trans hd'.symm⟩
  · rintro ⟨hw, hne, rfl, rfl⟩
    exact decodeWord_of_row (hw.trans hrow.symm) hc.symm hd.symm (hc.symm ▸ hne)

/-- Settles O4: encode and decode are inverse, and an encoding is its row's match value and its two fields. -/
theorem wordIsARowExactlyOnItsMatchValue : Obligations.WordIsARowExactlyOnItsMatchValue := by
  unfold Obligations.WordIsARowExactlyOnItsMatchValue
  intro w row h c d
  exact decodeWord_row_iff h c d

theorem decodeWord_ne_truncated (w : Word) : decodeWord w ≠ .error .truncated := by
  intro h
  simp only [decodeWord] at h
  split at h
  · cases h
  · split at h
    · cases h
    · split at h <;> cases h

/-- The decoder has one answer to a word other than an instruction. -/
theorem decodeWord_eq_notMine_iff {w : Word} : decodeWord w = .error .notMine ↔ ∀ i, decodeWord w ≠ .ok i := by
  constructor
  · intro h i
    simp [h]
  · intro h
    match hw : decodeWord w with
    | .ok i => exact absurd hw (h i)
    | .error .notMine => rfl
    | .error .truncated => exact absurd hw (decodeWord_ne_truncated w)

/-- Settles O5: a word is rejected exactly if it is the word of no row's instruction. -/
theorem everyOtherWordIsNotMine : Obligations.EveryOtherWordIsNotMine := by
  unfold Obligations.EveryOtherWordIsNotMine
  intro w
  rw [decodeWord_eq_notMine_iff]
  constructor
  · intro h
    by_contra hrow
    push Not at hrow
    obtain ⟨hne, row, hmem, hw⟩ := hrow
    exact h _ ((decodeWord_row_iff hmem _ _).mpr ⟨hw, hne, rfl, rfl⟩)
  · intro h i hi
    obtain ⟨row, hmem, hrow⟩ := exists_mem_rows i
    rw [hrow] at hi
    obtain ⟨hw, hne, -⟩ := (decodeWord_row_iff hmem _ _).mp hi
    exact h.elim hne fun hno => hno row hmem hw

/-- Settles O1: nine fixed words, the decoder evaluated. -/
theorem listedWordsDecodeAsListed : Obligations.ListedWordsDecodeAsListed := by
  unfold Obligations.ListedWordsDecodeAsListed
  decide

/-- Settles O6: four bytes of a word read back as the word, whose decoding O2 is. -/
theorem bytesDecodeInEitherOrder : Obligations.BytesDecodeInEitherOrder := by
  unfold Obligations.BytesDecodeInEitherOrder
  intro o i rest h
  constructor
  · obtain ⟨_, _, _, _, hb, -⟩ := bytesOfWord_cases o (encode i)
    simp [encodeBytes, hb]
  · rw [encodeBytes, decodeBytes_bytesOfWord, decodeWord_encode h]
    rfl

end Sys2Proof.Machine
end

section
/-! PROOFS, the step: what is fetched runs (30_encoding.md section 7), what lands between two instructions (log 3),
and what every step keeps: the parameters (00_scope.md R7), the invariant, an override in effect
(41_cache_size_override.md R106). -/

namespace Sys2Proof.Machine

open Sys2Proof.Claims

/-! ## One step -/

theorem afterInstruction_eq (a : Answer) : afterInstruction a = mapNext State.settle a := by
  cases a <;> rfl

/-- A step at a word of the block runs its instruction. -/
theorem step_of_decodeWord_ok {s : State} {w : Word} {i : Instr} (hr : s.resetAtProcessor = false)
    (hf : s.fetch = some (bytesOfWord s.params.byteOrder w)) (hd : decodeWord w = .ok i) :
    step s = mapNext State.settle (exec i s) := by
  have hb : decodeBytes s.params.byteOrder (bytesOfWord s.params.byteOrder w) = .ok (i, []) := by
    rw [← List.append_nil (bytesOfWord _ w), decodeBytes_bytesOfWord, hd]
    rfl
  simp [step, hr, hf, hb, afterInstruction_eq]

/-- A step at any other word is refused. -/
theorem step_of_decodeWord_notMine {s : State} {w : Word} (hr : s.resetAtProcessor = false)
    (hf : s.fetch = some (bytesOfWord s.params.byteOrder w)) (hd : decodeWord w = .error .notMine) :
    step s = .refused .notMine := by
  have hb : decodeBytes s.params.byteOrder (bytesOfWord s.params.byteOrder w) = .error .notMine := by
    rw [← List.append_nil (bytesOfWord _ w), decodeBytes_bytesOfWord, hd]
    rfl
  simp [step, hr, hf, hb]

theorem step_of_fetch_eq_none {s : State} (hr : s.resetAtProcessor = false) (hf : s.fetch = none) :
    step s = .refused .noInstruction := by
  simp [step, hr, hf]

/-- Nothing is fetched where one of the four bytes is missing. -/
theorem fetch_eq_none {s : State} {k : Fin 4} (h : Memory.read s.cpu.mem (fetchAddr s.cpu.pc k) = none) :
    s.fetch = none := by
  unfold State.fetch
  split
  · next h0 h1 h2 h3 =>
    match k with
    | 0 => exact absurd (h.symm.trans h0) (by simp)
    | 1 => exact absurd (h.symm.trans h1) (by simp)
    | 2 => exact absurd (h.symm.trans h2) (by simp)
    | 3 => exact absurd (h.symm.trans h3) (by simp)
  · rfl

/-- The bytes of a well-formed instruction at the pc are run. -/
theorem step_of_encodeBytes {s : State} {i : Instr} (hr : s.resetAtProcessor = false) (hi : i.wellFormed = true)
    (h : ∀ k : Fin 4, Memory.read s.cpu.mem (fetchAddr s.cpu.pc k) = (encodeBytes s.params.byteOrder i)[k]?) :
    step s = mapNext State.settle (exec i s) :=
  step_of_decodeWord_ok hr (fetch_of_bytes h) (decodeWord_encode hi)

/-- Settles O7: bytes of a word at the pc are fetched, and they decode to the instruction. -/
theorem stepExecutesTheInstructionAtThePc : Obligations.StepExecutesTheInstructionAtThePc := by
  unfold Obligations.StepExecutesTheInstructionAtThePc
  intro s i hr hi h
  exact step_of_encodeBytes hr hi h

/-- Settles O8: a missing byte stops the fetch, a word of no row the decoder. -/
theorem stepStopsByNameWithoutAnInstructionOfTheBlock :
    Obligations.StepStopsByNameWithoutAnInstructionOfTheBlock := by
  unfold Obligations.StepStopsByNameWithoutAnInstructionOfTheBlock
  constructor
  · intro s k hr h
    exact step_of_fetch_eq_none hr (fetch_eq_none h)
  · intro s w hr hd h
    exact step_of_decodeWord_notMine hr (fetch_of_bytes h) hd

/-- The load changes nothing the fetch reads but the four bytes it places. -/
theorem fetch_withFetchWord (s : State) (nbits w : Nat) : (s.withFetchWord nbits w).fetch =
    some (bytesOfWord (s.withFetchWord nbits w).params.byteOrder (tableWord nbits w)) := by
  unfold State.withFetchWord
  dsimp only
  split
  · exact fetch_placeWord s (tableWord nbits w)
  · exact fetch_placeWord s (tableWord nbits w)

theorem decodeTableWord_eq_some {nbits w : Nat} {i : Instr} (h : decodeTableWord nbits w = some i) :
    decodeWord (tableWord nbits w) = .ok i := by
  unfold decodeTableWord at h
  rw [← List.append_nil (bytesOfWord _ _), decodeBytes_bytesOfWord] at h
  cases hd : decodeWord (tableWord nbits w) with
  | ok j => simpa [hd, Except.map] using h
  | error q => simp [hd, Except.map] at h

/-- Settles O9: the load leaves no wired reset requested and the word at the pc. -/
theorem loadedWordRunsNext : Obligations.LoadedWordRunsNext := by
  unfold Obligations.LoadedWordRunsNext
  intro s w i h
  exact step_of_decodeWord_ok (resetAtProcessor_withFetchWord s 32 w) (fetch_withFetchWord s 32 w)
    (decodeTableWord_eq_some h)

/-! ## Between two instructions -/

theorem settle_of_requested {s : State} (h : s.resetAtProcessor = true) : s.settle = s := by
  simp [State.settle, h]

theorem settle_of_not_requested {s : State} (h : s.resetAtProcessor = false) : s.settle = s.landEvent := by
  simp [State.settle, h]

theorem landEvent_nil {s : State} (h : s.env = []) : s.landEvent = s := by
  simp [State.landEvent, h]

theorem landEvent_cons {s : State} {e : EnvEvent} {es : List EnvEvent} (h : s.env = e :: es) :
    s.landEvent = State.apply { s with env := es } e := by
  simp [State.landEvent, h]

/-- Settles O10: the four events are the four arms of `State.apply`. -/
theorem eventsBetweenInstructionsDoWhatTheySay : Obligations.EventsBetweenInstructionsDoWhatTheySay := by
  unfold Obligations.EventsBetweenInstructionsDoWhatTheySay
  exact ⟨fun _ => settle_of_requested, fun _ => settle_of_not_requested, fun _ => landEvent_nil,
    fun _ _ => landEvent_cons, fun _ _ _ => landEvent_cons, fun _ _ _ _ => landEvent_cons,
    fun _ _ _ _ => landEvent_cons⟩

/-! ## What a completed instruction keeps -/

/-- What none of the four effects of an instruction changes, no completed instruction changes. -/
theorem exec_keeps {α : Type} (f : State → α) (advance : ∀ s, f s.advance = f s)
    (readEffect : ∀ reg r s, f (readEffect reg r s) = f s) (writeEffect : ∀ reg v s, f (writeEffect reg v s) = f s)
    (setCso : ∀ s o, f (s.setCso o) = f s) {i : Instr} {s t : State} (h : exec i s = .next t) : f t = f s := by
  rcases exec_next_cases h with ⟨-, rfl⟩ | ⟨-, reg, r, -, -, -, rfl⟩ | ⟨-, reg, r, -, -, -, -, rfl⟩ |
    ⟨-, -, r, o, -, -, -, rfl⟩
  · exact advance s
  · exact readEffect reg r s
  · exact writeEffect reg (s.getX r) s
  · rw [advance, setCso]

theorem exec_keeps_params {i : Instr} {s t : State} (h : exec i s = .next t) : t.params = s.params :=
  exec_keeps State.params advance_params readEffect_params writeEffect_params setCso_params h

theorem exec_keeps_inputs {i : Instr} {s t : State} (h : exec i s = .next t) : t.inputs = s.inputs :=
  exec_keeps State.inputs advance_inputs readEffect_inputs writeEffect_inputs setCso_inputs h

theorem exec_keeps_env {i : Instr} {s t : State} (h : exec i s = .next t) : t.env = s.env :=
  exec_keeps State.env advance_env readEffect_env writeEffect_env setCso_env h

/-- What a completed instruction can do to the override: nothing, or, if it is its write in Privileged mode, replace
it by one of integrated sizes. -/
theorem exec_cso_cases {i : Instr} {s t : State} (h : exec i s = .next t) : t.cso = s.cso ∨
    (i.isCsoWrite = true ∧ s.inputs.priv = true ∧ ∃ o : Override, o.allowed s.params = true ∧ t.cso = some o) := by
  rcases exec_next_cases h with ⟨-, rfl⟩ | ⟨-, reg, r, -, -, -, rfl⟩ | ⟨-, reg, r, -, -, -, -, rfl⟩ |
    ⟨-, hi, r, o, -, hpriv, hval, rfl⟩
  · exact .inl rfl
  · exact .inl rfl
  · exact .inl (writeEffect_cso reg (s.getX r) s)
  · obtain ⟨-, -, -, hallowed⟩ := csoValue_ok.mp hval
    exact .inr ⟨hi, hpriv, o, hallowed, rfl⟩

/-! ## The parameters -/

theorem step_keeps_params {s t : State} (h : step s = .next t) : t.params = s.params := by
  rcases step_next_cases h with ⟨-, rfl⟩ | ⟨-, _, _, _, u, -, -, hu, rfl⟩
  · rw [settle_params, wiredReset_params]
  · rw [settle_params, exec_keeps_params hu]

/-- Settles O11, by induction on the number of steps. -/
theorem noRunChangesAParameter : Obligations.NoRunChangesAParameter := by
  unfold Obligations.NoRunChangesAParameter
  intro n
  induction n with
  | zero => rintro s t rfl; rfl
  | succ n ih =>
    rintro s t ⟨u, hstep, hrun⟩
    rw [ih u t hrun, step_keeps_params hstep]

/-! ## Reset and the invariant -/

/-- Settles O12: `State.reset` field by field. -/
theorem resetLeavesMasksOpenAndNoOverride : Obligations.ResetLeavesMasksOpenAndNoOverride := by
  unfold Obligations.ResetLeavesMasksOpenAndNoOverride
  refine ⟨rfl, rfl, rfl, rfl, rfl, fun n => ?_⟩
  simp [State.reset]

/-- Settles O13: after reset there is no override, no byte placed and no event. -/
theorem resetMeetsTheMachineInvariant : Obligations.ResetMeetsTheMachineInvariant where
  overrideAllowed _ h := nomatch h
  memoryWf := rfl
  eventsWf _ h := nomatch h

theorem exec_keeps_inv {i : Instr} {s t : State} (hs : s.Inv) (h : exec i s = .next t) : t.Inv where
  overrideAllowed o ho := by
    rw [exec_keeps_params h]
    rcases exec_cso_cases h with hcso | ⟨-, -, o', hallowed, hcso⟩
    · exact hs.overrideAllowed o (hcso ▸ ho)
    · rw [hcso] at ho
      cases ho
      exact hallowed
  memoryWf := exec_keeps_mem h ▸ hs.memoryWf
  eventsWf := exec_keeps_env h ▸ hs.eventsWf

theorem apply_keeps_inv {s : State} {e : EnvEvent} (hs : s.Inv) (he : e.wf = true) : (s.apply e).Inv :=
  match e with
  | .idle => hs
  | .inputs _ => ⟨hs.overrideAllowed, hs.memoryWf, hs.eventsWf⟩
  | .processor _ _ => ⟨hs.overrideAllowed, he, hs.eventsWf⟩
  | .reset _ _ => ⟨fun _ h => (nomatch h), he, hs.eventsWf⟩

theorem landEvent_keeps_inv {s : State} (hs : s.Inv) : s.landEvent.Inv := by
  cases henv : s.env with
  | nil => rwa [landEvent_nil henv]
  | cons e es =>
    have hevents : ∀ e' ∈ e :: es, e'.wf = true := henv ▸ hs.eventsWf
    rw [landEvent_cons henv]
    refine apply_keeps_inv ⟨hs.overrideAllowed, hs.memoryWf, fun e' h => ?_⟩ (hevents e (by simp))
    exact hevents e' (List.mem_cons_of_mem e h)

theorem settle_keeps_inv {s : State} (hs : s.Inv) : s.settle.Inv := by
  rcases settle_cases s with ⟨-, h⟩ | ⟨-, h⟩
  · rwa [h]
  · rw [h]
    exact landEvent_keeps_inv hs

theorem wiredReset_keeps_inv {s : State} (hs : s.Inv) : s.wiredReset.Inv :=
  ⟨fun _ h => (nomatch h), hs.memoryWf, hs.eventsWf⟩

/-- Settles O14: the wired reset, every instruction and every event keep the invariant. -/
theorem everyStepKeepsTheMachineInvariant : Obligations.EveryStepKeepsTheMachineInvariant := by
  unfold Obligations.EveryStepKeepsTheMachineInvariant
  intro s t hs h
  rcases step_next_cases h with ⟨-, rfl⟩ | ⟨-, _, _, _, u, -, -, hu, rfl⟩
  · exact settle_keeps_inv (wiredReset_keeps_inv hs)
  · exact settle_keeps_inv (exec_keeps_inv hs hu)

/-! ## An override in effect -/

/-- An event other than a reset leaves the override alone. -/
theorem settle_keeps_cso {s : State} (hno : s.noResetNext) : s.settle.cso = s.cso := by
  rcases settle_cases s with ⟨-, h⟩ | ⟨-, h⟩
  · rw [h]
  · rw [h]
    match henv : s.env with
    | [] => rw [landEvent_nil henv]
    | .idle :: _ | .inputs _ :: _ | .processor _ _ :: _ => rw [landEvent_cons henv]; rfl
    | .reset c i :: es => exact absurd henv (hno c i es)

/-- Settles O15: an instruction replaces an override or leaves it, and what lands after it leaves it. -/
theorem onlyResetRemovesTheOverride : Obligations.OnlyResetRemovesTheOverride := by
  unfold Obligations.OnlyResetRemovesTheOverride
  intro s t hcso hno hr h
  rcases step_next_cases h with ⟨hr', -⟩ | ⟨-, _, _, _, u, -, -, hu, rfl⟩
  · rw [hr] at hr'
    cases hr'
  · have hno' : u.noResetNext := fun c i es he => hno c i es ((exec_keeps_env hu).symm.trans he)
    rw [settle_keeps_cso hno']
    rcases exec_cso_cases hu with hsame | ⟨-, -, o, -, hnew⟩
    · rwa [hsame]
    · simp [hnew]

end Sys2Proof.Machine
end

section
/-! PROOFS, the enable registers (40_enable_set_clear.md). First the terms of the statements in the model's own terms,
then what an access answers with its condition passed, then the laws of the two kinds of write. -/

namespace Sys2Proof.Machine

open Sys2Proof.Claims

/-! ## The statements' terms are the model's checks -/

theorem passed_iff {c : Cond} {s : State} : Passed c s ↔ condPassed c s = true := by
  simp [Passed, condPassed]

theorem not_passed_iff {c : Cond} {s : State} : ¬ Passed c s ↔ condPassed c s = false := by
  simp [passed_iff]

theorem permitted_iff {s : State} : Permitted s ↔ enAccessOk s = true := by
  simp [Permitted, enAccessOk]

theorem not_permitted_iff {s : State} : ¬ Permitted s ↔ enAccessOk s = false := by
  simp [permitted_iff]

theorem admitted_iff {s : State} {reg : EnReg} {v : Word} : Admitted s (regNumber reg) v ↔
    sbzpAdmits s.params.sbzpPolicy (s.lastRead reg) (reservedBits v) = true := by
  simp [Admitted, sbzpAdmits, reservedBits, State.lastRead]

theorem carries_iff {v : Word} {e : EnableMask} : Carries v e ↔ functionBits v = e := by
  cases e
  simp [Carries, functionBits]

theorem regNo_injective {r q : Fin 15} (h : regNo r = regNo q) : r = q := by
  revert r q
  decide

theorem advance_eq (s : State) : s.advance = { s with cpu := cpuPast s } := rfl

/-! ## What an access answers -/

theorem exec_of_failed {i : Instr} {s : State} (h : ¬ Passed i.cond s) : exec i s = .next s.advance := by
  have hp := not_passed_iff.mp h
  rcases instr_cases i with ⟨reg, hi⟩ | ⟨reg, hi⟩ | ⟨c, d, rfl⟩ | ⟨c, d, rfl⟩
  · rw [exec_of_reads s hi, whenPassed_of_failed _ hp]
  · rw [exec_of_writes s hi, whenPassed_of_failed _ hp]
  · exact whenPassed_of_failed _ hp
  · exact whenPassed_of_failed _ hp

theorem exec_of_reads_passed {i : Instr} {reg : EnReg} {s : State} (hi : i.reads? = some reg) (hp : Passed i.cond s) :
    exec i s = readEn reg i.rd s := by
  rw [exec_of_reads s hi, whenPassed_of_passed _ (passed_iff.mp hp)]

theorem exec_of_writes_passed {i : Instr} {reg : EnReg} {s : State} (hi : i.writes? = some reg)
    (hp : Passed i.cond s) : exec i s = writeEn reg i.rd s := by
  rw [exec_of_writes s hi, whenPassed_of_passed _ (passed_iff.mp hp)]

theorem exec_mcrCsor_passed {c : Cond} {s : State} (d : Reg) (hp : Passed c s) :
    exec (.mcrCsor c d) s = writeCso d s :=
  whenPassed_of_passed _ (passed_iff.mp hp)

theorem exec_mrcCsor_passed {c : Cond} {s : State} (d : Reg) (hp : Passed c s) :
    exec (.mrcCsor c d) s = .refused .readOfWriteOnly :=
  whenPassed_of_passed _ (passed_iff.mp hp)

section
variable {i : Instr} {reg : EnReg} {r : Fin 15} {s t : State}

/-- A permitted read completes. -/
theorem exec_read (hi : i.reads? = some reg) (hd : i.rd = regNo r) (hp : Passed i.cond s) (ok : Permitted s) :
    exec i s = .next (readEffect reg r s) := by
  rw [exec_of_reads_passed hi hp]
  exact readEn_next.mpr ⟨r, hd, permitted_iff.mp ok, rfl⟩

/-- A permitted and admitted write completes. -/
theorem exec_write (hi : i.writes? = some reg) (hd : i.rd = regNo r) (hp : Passed i.cond s) (ok : Permitted s)
    (adm : Admitted s (regNumber reg) s.cpu.x[r]) : exec i s = .next (writeEffect reg s.cpu.x[r] s) := by
  rw [exec_of_writes_passed hi hp]
  exact writeEn_next.mpr ⟨r, hd, permitted_iff.mp ok, admitted_iff.mp adm, rfl⟩

/-- A completed read has had its effect. -/
theorem eq_readEffect (hi : i.reads? = some reg) (hd : i.rd = regNo r) (hp : Passed i.cond s)
    (h : exec i s = .next t) : t = readEffect reg r s := by
  rw [exec_of_reads_passed hi hp] at h
  obtain ⟨q, hq, -, ht⟩ := readEn_next.mp h
  rwa [regNo_injective (hd.symm.trans hq)]

/-- A completed write has had its effect. -/
theorem eq_writeEffect (hi : i.writes? = some reg) (hd : i.rd = regNo r) (hp : Passed i.cond s)
    (h : exec i s = .next t) : t = writeEffect reg s.cpu.x[r] s := by
  rw [exec_of_writes_passed hi hp] at h
  obtain ⟨q, hq, -, -, ht⟩ := writeEn_next.mp h
  rwa [regNo_injective (hd.symm.trans hq)]

end

/-! ## The laws of the two kinds of write -/

@[simp] theorem writeSet_functionBits (e : EnableMask) (v : Word) : writeSet e (functionBits v) = afterSet e v := by
  simp [writeSet, functionBits, afterSet, Bool.or_comm]

@[simp] theorem writeClr_functionBits (e : EnableMask) (v : Word) : writeClr e (functionBits v) = afterClr e v := by
  simp [writeClr, functionBits, afterClr, Bool.and_comm]

@[simp] theorem afterSet_zero (e : EnableMask) : afterSet e 0#32 = e := by
  simp [afterSet]

@[simp] theorem afterClr_zero (e : EnableMask) : afterClr e 0#32 = e := by
  simp [afterClr]

theorem afterSet_afterSet (e : EnableMask) (v w : Word) : afterSet (afterSet e v) w = afterSet e (v ||| w) := by
  simp [afterSet, Bool.or_assoc]

theorem afterClr_afterClr (e : EnableMask) (v w : Word) : afterClr (afterClr e v) w = afterClr e (v ||| w) := by
  simp [afterClr, Bool.and_assoc]

theorem afterClr_afterSet (e : EnableMask) (v : Word) : afterClr (afterSet e v) v = afterClr e v := by
  simp [afterClr, afterSet, Bool.and_or_distrib_right]

theorem afterSet_afterClr (e : EnableMask) (v : Word) : afterSet (afterClr e v) v = afterSet e v := by
  simp [afterClr, afterSet, Bool.or_and_distrib_right]

/-- Only the function bits of a value matter. -/
theorem functionBits_and_function (v : Word) : functionBits (v &&& 0x80000007#32) = functionBits v := by
  simp [functionBits]

@[simp] theorem afterSet_all (e : EnableMask) : afterSet e 0x80000007#32 = allOn := by
  simp [afterSet, allOn]

@[simp] theorem afterClr_all (e : EnableMask) : afterClr e 0x80000007#32 = allOff := by
  simp [afterClr, allOff]

@[simp] theorem writeSet_self (e : EnableMask) : writeSet e e = e := by
  simp [writeSet]

@[simp] theorem writeClr_self (e : EnableMask) : writeClr e e = allOff := by
  simp [writeClr, allOff]

@[simp] theorem writeSet_allOff (e : EnableMask) : writeSet allOff e = e := by
  simp [writeSet, allOff]

/-- Settles O20, each law by its own lemma. -/
theorem setAndClearWritesObeyTheirLaws : Obligations.SetAndClearWritesObeyTheirLaws := by
  unfold Obligations.SetAndClearWritesObeyTheirLaws
  intro e v w
  simp only [writeSet_functionBits, writeClr_functionBits]
  refine ⟨afterSet_zero e, afterClr_zero e, trivial, trivial, afterSet_afterSet e v w, ?_, afterClr_afterClr e v w, ?_,
    ?_, ?_, afterClr_afterSet e v, afterSet_afterClr e v, ?_, ?_, afterClr_all e, afterSet_all e, fun target => ?_⟩
  · rw [afterSet_afterSet, BitVec.or_comm]
  · rw [afterClr_afterClr, BitVec.or_comm]
  · rw [afterSet_afterSet, BitVec.or_self]
  · rw [afterClr_afterClr, BitVec.or_self]
  · rw [← writeSet_functionBits, functionBits_and_function, writeSet_functionBits]
  · rw [← writeClr_functionBits, functionBits_and_function, writeClr_functionBits]
  · rw [afterClr_all, ← writeSet_functionBits, pk, functionBits_readValue, writeSet_allOff]

/-! ## Reads -/

theorem readsInto_of_reads {i : Instr} {reg : EnReg} {r : Fin 15} {s : State} (hi : i.reads? = some reg)
    (hd : i.rd = regNo r) (hp : Passed i.cond s) (ok : Permitted s) :
    ReadsInto i (regNumber reg) (s.mask (regKind reg)) r s :=
  ⟨readValue (s.mask (regKind reg)) (Config.freeReserved s.draws), carries_iff.mpr (functionBits_readValue _ _),
    reservedBits_readValue _ _, exec_read hi hd hp ok⟩

/-- Settles O16: the eight reads are one read, of the register's own mask. -/
theorem enableReadsReturnTheCurrentSetting : Obligations.EnableReadsReturnTheCurrentSetting := by
  unfold Obligations.EnableReadsReturnTheCurrentSetting
  intro c r s hp ok
  exact ⟨readsInto_of_reads (reg := .irqEnset) rfl rfl hp ok, readsInto_of_reads (reg := .fiqEnset) rfl rfl hp ok,
    readsInto_of_reads (reg := .rstEnset) rfl rfl hp ok, readsInto_of_reads (reg := .dbgEnset) rfl rfl hp ok,
    readsInto_of_reads (reg := .irqEnclr) rfl rfl hp ok, readsInto_of_reads (reg := .fiqEnclr) rfl rfl hp ok,
    readsInto_of_reads (reg := .rstEnclr) rfl rfl hp ok, readsInto_of_reads (reg := .dbgEnclr) rfl rfl hp ok⟩

/-! ## Writes -/

theorem writeEffect_of_set {reg : EnReg} (h : regPort reg = .set) (v : Word) (s : State) : writeEffect reg v s =
    (s.setMask (regKind reg) (afterSet (s.mask (regKind reg)) v)).advance := by
  rw [writeEffect, h, writePort, writeSet_functionBits]

theorem writeEffect_of_clr {reg : EnReg} (h : regPort reg = .clr) (v : Word) (s : State) : writeEffect reg v s =
    (s.setMask (regKind reg) (afterClr (s.mask (regKind reg)) v)).advance := by
  rw [writeEffect, h, writePort, writeClr_functionBits]

section
variable {i : Instr} {reg : EnReg} {r : Fin 15} {s : State}

theorem exec_setWrite (hi : i.writes? = some reg) (hset : regPort reg = .set) (hd : i.rd = regNo r)
    (hp : Passed i.cond s) (ok : Permitted s) (adm : Admitted s (regNumber reg) s.cpu.x[r]) :
    exec i s = .next (s.setMask (regKind reg) (afterSet (s.mask (regKind reg)) s.cpu.x[r])).advance := by
  rw [exec_write hi hd hp ok adm, writeEffect_of_set hset]

theorem exec_clrWrite (hi : i.writes? = some reg) (hclr : regPort reg = .clr) (hd : i.rd = regNo r)
    (hp : Passed i.cond s) (ok : Permitted s) (adm : Admitted s (regNumber reg) s.cpu.x[r]) :
    exec i s = .next (s.setMask (regKind reg) (afterClr (s.mask (regKind reg)) s.cpu.x[r])).advance := by
  rw [exec_write hi hd hp ok adm, writeEffect_of_clr hclr]

end

/-- Settles O17: the four Set writes are one, on the register's own mask. -/
theorem setWritesEnableTheNamedCounters : Obligations.SetWritesEnableTheNamedCounters := by
  unfold Obligations.SetWritesEnableTheNamedCounters
  intro c r s hp ok
  exact ⟨exec_setWrite (reg := .irqEnset) rfl rfl rfl hp ok, exec_setWrite (reg := .fiqEnset) rfl rfl rfl hp ok,
    exec_setWrite (reg := .rstEnset) rfl rfl rfl hp ok, exec_setWrite (reg := .dbgEnset) rfl rfl rfl hp ok⟩

/-- Settles O18: the four Clear writes are one, on the register's own mask. -/
theorem clearWritesDisableTheNamedCounters : Obligations.ClearWritesDisableTheNamedCounters := by
  unfold Obligations.ClearWritesDisableTheNamedCounters
  intro c r s hp ok
  exact ⟨exec_clrWrite (reg := .irqEnclr) rfl rfl rfl hp ok, exec_clrWrite (reg := .fiqEnclr) rfl rfl rfl hp ok,
    exec_clrWrite (reg := .rstEnclr) rfl rfl rfl hp ok, exec_clrWrite (reg := .dbgEnclr) rfl rfl rfl hp ok⟩

/-- Settles O19: `sbzpViolated` is the answer of a permitted write whose reserved bits fail the one check. -/
theorem enableWritesAreRefusedOnBadReservedBits : Obligations.EnableWritesAreRefusedOnBadReservedBits := by
  unfold Obligations.EnableWritesAreRefusedOnBadReservedBits
  intro i reg r s hi hd hp ok
  rw [exec_of_writes_passed hi hp, writeEn_refused, admitted_iff, Bool.not_eq_true]
  constructor
  · rintro (⟨-, hq⟩ | ⟨q, hq, -, hbad, -⟩)
    · cases hq
    · rwa [regNo_injective (hd.symm.trans hq)]
  · intro hbad
    exact .inr ⟨r, hd, permitted_iff.mp ok, hbad, rfl⟩

/-! ## Reads after writes and writes after reads -/

/-- Settles O21: the write leaves its mask, and the read returns the mask it finds. -/
theorem readsSeeEarlierWrites : Obligations.ReadsSeeEarlierWrites := by
  unfold Obligations.ReadsSeeEarlierWrites
  intro i j reg q r p s t u hi hj hkind hri hrj hpi hpj hs ht
  obtain rfl := eq_writeEffect hi hri hpi hs
  obtain rfl := eq_readEffect hj hrj hpj ht
  rw [carries_iff, readEffect_x, hkind]
  cases hport : regPort reg with
  | set => simp [writeEffect_of_set hport]
  | clr => simp [writeEffect_of_clr hport]

/-- What a read leaves for a write of the same register under `zero_or_preserved`: the value it returned is admitted. -/
theorem admitted_readEffect {reg : EnReg} {r : Fin 15} {s : State} (h : s.params.sbzpPolicy = .zeroOrPreserved) :
    Admitted (readEffect reg r s) (regNumber reg) (readEffect reg r s).cpu.x[r] := by
  refine .inr ⟨h, ?_⟩
  have hbits := reservedBits_readValue (s.mask (regKind reg)) (Config.freeReserved s.draws)
  rw [reservedBits] at hbits
  simp [hbits]

/-- Settles O22: the value read carries the mask, and its reserved bits are those LASTRD has just recorded. -/
theorem writingBackAReadValueIsAdmitted : Obligations.WritingBackAReadValueIsAdmitted := by
  unfold Obligations.WritingBackAReadValueIsAdmitted
  intro i j reg r s hi hj hri hrj hpi hpj ok hpol
  refine ⟨readEffect reg r s, _, exec_read hi hri hpi ok, exec_write hj hrj hpj ok (admitted_readEffect hpol), ?_⟩
  have hmask : (readEffect reg r s).mask (regKind reg) = s.mask (regKind reg) := rfl
  rw [writeEffect_mask_same, readEffect_x, hmask]
  cases regPort reg with
  | set => simp [writePort]
  | clr => simp [writePort]

end Sys2Proof.Machine
end

section
/-! PROOFS, the override (41_cache_size_override.md), the ways an instruction stops (60_exceptions.md), and what a
completed instruction leaves alone (40_enable_set_clear.md R94, R96, R98; 41_cache_size_override.md R107). -/

namespace Sys2Proof.Machine

open Sys2Proof.Claims

/-! ## The value of a write of `VAL_CSOR` -/

@[simp] theorem csoReserved_append (n m : BitVec 4) : csoReserved (0#24 ++ n ++ m) = 0#24 := by
  revert n m
  decide

@[simp] theorem csoDcache_append (n m : BitVec 4) : csoDcache (0#24 ++ n ++ m) = n := by
  revert n m
  decide

@[simp] theorem csoIcache_append (n m : BitVec 4) : csoIcache (0#24 ++ n ++ m) = m := by
  revert n m
  decide

theorem csoValue_of_reserved {v : Word} (p : Params) (h : csoReserved v ≠ 0#24) :
    csoValue p v = .error .sbzViolated := by
  simp [csoValue, h]

theorem csoValue_of_unlisted {v : Word} (p : Params) (h0 : csoReserved v = 0#24)
    (h : cacheSize? (csoDcache v) = none ∨ cacheSize? (csoIcache v) = none) :
    csoValue p v = .error .unlistedCacheSize := by
  rcases h with h | h <;> simp [csoValue, h0, h]

theorem csoValue_of_notIntegrated {p : Params} {d i : CacheSize} (h : d ∉ p.csoAllowedD ∨ i ∉ p.csoAllowedI) :
    csoValue p (0#24 ++ cacheCode d ++ cacheCode i) = .error .cacheSizeNotIntegrated := by
  simpa [csoValue, imp_iff_not_or] using h

theorem csoValue_of_integrated {p : Params} {d i : CacheSize} (hd : d ∈ p.csoAllowedD) (hi : i ∈ p.csoAllowedI) :
    csoValue p (0#24 ++ cacheCode d ++ cacheCode i) = .ok ⟨d, i⟩ := by
  simp [csoValue_ok, Override.allowed, hd, hi]

/-- In Privileged mode a bad value stops the write under its own name. -/
theorem exec_mcrCsor_refused {c : Cond} {r : Fin 15} {s : State} {q : Refusal} (hp : Passed c s)
    (hpriv : s.inputs.priv = true) (h : csoValue s.params s.cpu.x[r] = .error q) :
    exec (.mcrCsor c (regNo r)) s = .refused q := by
  rw [exec_mcrCsor_passed _ hp]
  exact writeCso_refused.mpr (.inr ⟨r, rfl, hpriv, h⟩)

/-- Settles O23: the value passes every check and selects the two sizes. -/
theorem overrideWriteSelectsTheTwoSizes : Obligations.OverrideWriteSelectsTheTwoSizes := by
  unfold Obligations.OverrideWriteSelectsTheTwoSizes
  intro c r s d i hp hpriv hv hd hi
  have hval : csoValue s.params s.cpu.x[r] = .ok ⟨d, i⟩ := hv ▸ csoValue_of_integrated hd hi
  rw [exec_mcrCsor_passed _ hp]
  exact writeCso_next.mpr ⟨r, ⟨d, i⟩, rfl, hpriv, hval, rfl⟩

/-- Settles O24: the three errors of `csoValue`, in its order. -/
theorem overrideWriteIsRefusedOnBadValues : Obligations.OverrideWriteIsRefusedOnBadValues := by
  unfold Obligations.OverrideWriteIsRefusedOnBadValues
  intro c r s hp hpriv
  refine ⟨fun h => ?_, fun h0 h => ?_, fun d i hv h => ?_⟩
  · exact exec_mcrCsor_refused hp hpriv (csoValue_of_reserved s.params h)
  · exact exec_mcrCsor_refused hp hpriv (csoValue_of_unlisted s.params h0 h)
  · exact exec_mcrCsor_refused hp hpriv (hv ▸ csoValue_of_notIntegrated h)

/-- Settles O25: past the condition the read has one answer. -/
theorem overrideReadIsRefusedInEveryMode : Obligations.OverrideReadIsRefusedInEveryMode := by
  unfold Obligations.OverrideReadIsRefusedInEveryMode
  intro c d s hp
  exact exec_mrcCsor_passed d hp

/-- Settles O26: the listed codes by evaluation; an unlisted one in either field fails the second check of a write. -/
theorem sizeCodesAreThoseOfTheTable : Obligations.SizeCodesAreThoseOfTheTable := by
  unfold Obligations.SizeCodesAreThoseOfTheTable
  refine ⟨rfl, rfl, rfl, rfl, rfl, by decide, fun n hn => ?_⟩
  have hnone : cacheSize? n = none := cacheSize?_eq_none.mpr hn
  refine ⟨hnone, fun c r s m hp hpriv hv => exec_mcrCsor_refused hp hpriv ?_⟩
  rcases hv with hv | hv
  · rw [hv]
    exact csoValue_of_unlisted _ (csoReserved_append n m) (.inl (by rw [csoDcache_append, hnone]))
  · rw [hv]
    exact csoValue_of_unlisted _ (csoReserved_append m n) (.inr (by rw [csoIcache_append, hnone]))

/-- Settles O27, by whether an override is in effect. -/
theorem overrideReplacesTheImplementedSizes : Obligations.OverrideReplacesTheImplementedSizes := by
  unfold Obligations.OverrideReplacesTheImplementedSizes
  intro s d i
  constructor
  · intro h
    simp [State.dcacheSize, State.icacheSize, h]
  · intro o h
    simp [State.dcacheSize, State.icacheSize, h]

/-! ## The ways an instruction stops -/

theorem isEnableAccess_of_reads {i : Instr} {reg : EnReg} (h : i.reads? = some reg) : i.isEnableAccess = true := by
  simp [Instr.isEnableAccess, h]

theorem isEnableAccess_of_writes {i : Instr} {reg : EnReg} (h : i.writes? = some reg) : i.isEnableAccess = true := by
  simp [Instr.isEnableAccess, h]

theorem isCsoWrite_of_isEnableAccess {i : Instr} (h : i.isEnableAccess = true) : i.isCsoWrite = false := by
  cases i
  case mcrCsor => cases h
  all_goals rfl

theorem whenPassed_fault {c : Cond} {s : State} {a : Answer} {f : Fault} :
    whenPassed c s a = .fault f ↔ Passed c s ∧ a = .fault f := by
  rw [passed_iff, whenPassed]
  cases condPassed c s <;> simp

/-- Settles O28, from the one place where the condition is consulted. -/
theorem failedConditionOnlyAdvancesThePc : Obligations.FailedConditionOnlyAdvancesThePc := by
  unfold Obligations.FailedConditionOnlyAdvancesThePc
  intro i s h
  rw [exec_of_failed h, advance_eq]

/-- Settles O29: `withGeneral` comes first in each of the three procedures. -/
theorem r15OperandIsRefused : Obligations.R15OperandIsRefused := by
  unfold Obligations.R15OperandIsRefused
  intro i s hi hd hp
  rcases instr_cases i with ⟨reg, hr⟩ | ⟨reg, hw⟩ | ⟨c, d, rfl⟩ | ⟨c, d, rfl⟩
  · rw [exec_of_reads_passed hr hp]
    exact readEn_refused.mpr ⟨hd, rfl⟩
  · rw [exec_of_writes_passed hw hp]
    exact writeEn_refused.mpr (.inl ⟨hd, rfl⟩)
  · rw [exec_mcrCsor_passed (c := c) d hp]
    exact writeCso_refused.mpr (.inl ⟨hd, rfl⟩)
  · rcases hi with hi | hi <;> cases hi

/-- Settles O30: of the four shapes of an instruction three can fault, each exactly when its access check fails. -/
theorem onlyDeniedAccessesRaiseUndefined : Obligations.OnlyDeniedAccessesRaiseUndefined := by
  unfold Obligations.OnlyDeniedAccessesRaiseUndefined
  intro i s f
  rcases instr_cases i with ⟨reg, hr⟩ | ⟨reg, hw⟩ | ⟨c, d, rfl⟩ | ⟨c, d, rfl⟩
  · have hen := isEnableAccess_of_reads hr
    rw [exec_of_reads s hr, whenPassed_fault, readEn_fault, not_permitted_iff]
    simp only [hen, isCsoWrite_of_isEnableAccess hen, r15]
    tauto
  · have hen := isEnableAccess_of_writes hw
    rw [exec_of_writes s hw, whenPassed_fault, writeEn_fault, not_permitted_iff]
    simp only [hen, isCsoWrite_of_isEnableAccess hen, r15]
    tauto
  · rw [exec_mcrCsor, whenPassed_fault, writeCso_fault, csoAccessOk_eq]
    simp only [Instr.isEnableAccess, Instr.reads?, Instr.writes?, Instr.isCsoWrite, Instr.cond, Instr.rd, r15]
    tauto
  · rw [exec_mrcCsor, whenPassed_fault]
    simp [Instr.isEnableAccess, Instr.reads?, Instr.writes?, Instr.isCsoWrite]

/-! ## What a completed instruction leaves alone -/

@[simp] theorem readEffect_mask (reg : EnReg) (r : Fin 15) (s : State) (k : Kind) :
    (readEffect reg r s).mask k = s.mask k := by
  cases k <;> rfl

@[simp] theorem setCso_mask (s : State) (o : Override) (k : Kind) : (s.setCso o).mask k = s.mask k := by
  cases k <;> rfl

/-- A mask is changed by the writes of its own kind alone. -/
theorem exec_keeps_mask {i : Instr} {s t : State} {k : Kind} (h : exec i s = .next t)
    (hk : ∀ reg, i.writes? = some reg → regKind reg ≠ k) : t.mask k = s.mask k := by
  rcases exec_next_cases h with ⟨-, rfl⟩ | ⟨-, reg, r, -, -, -, rfl⟩ | ⟨-, reg, r, hi, -, -, -, rfl⟩ |
    ⟨-, -, r, o, -, -, -, rfl⟩
  · exact advance_mask s k
  · exact readEffect_mask reg r s k
  · exact writeEffect_mask_other reg (s.getX r) s k (hk reg hi).symm
  · rw [advance_mask, setCso_mask]

/-- The override is changed by its write alone. -/
theorem exec_keeps_cso {i : Instr} {s t : State} (h : exec i s = .next t) (hi : i.isCsoWrite = false) :
    t.cso = s.cso := by
  rcases exec_cso_cases h with hsame | ⟨hw, -⟩
  · exact hsame
  · rw [hi] at hw
    cases hw

theorem exec_advances_pc {i : Instr} {s t : State} (h : exec i s = .next t) : t.cpu.pc = s.cpu.pc + 4#32 := by
  rcases exec_next_cases h with ⟨-, rfl⟩ | ⟨-, reg, r, -, -, -, rfl⟩ | ⟨-, reg, r, -, -, -, -, rfl⟩ |
    ⟨-, -, r, o, -, -, -, rfl⟩
  · exact advance_pc s
  · exact readEffect_pc reg r s
  · exact writeEffect_pc reg (s.getX r) s
  · rfl

/-- The general registers, LASTRD and the draws are changed by reads alone. -/
theorem exec_of_no_read {i : Instr} {s t : State} (h : exec i s = .next t) (hi : i.reads? = none) :
    t.cpu.x = s.cpu.x ∧ t.lastRd = s.lastRd ∧ t.draws = s.draws := by
  rcases exec_next_cases h with ⟨-, rfl⟩ | ⟨-, reg, r, hr, -, -, rfl⟩ | ⟨-, reg, r, -, -, -, -, rfl⟩ |
    ⟨-, -, r, o, -, -, -, rfl⟩
  · exact ⟨rfl, rfl, rfl⟩
  · rw [hi] at hr
    cases hr
  · exact ⟨writeEffect_x reg (s.getX r) s, writeEffect_lastRd reg (s.getX r) s, writeEffect_draws reg (s.getX r) s⟩
  · exact ⟨rfl, rfl, rfl⟩

/-- A read changes one general register, its Rd, and one entry of LASTRD, its register's. -/
theorem exec_of_read {i : Instr} {reg : EnReg} {s t : State} (h : exec i s = .next t) (hi : i.reads? = some reg) :
    (∀ q : Fin 15, i.rd ≠ regNo q → t.cpu.x[q] = s.cpu.x[q]) ∧
      (∀ n : Fin 8, regNumber reg ≠ n → t.lastRd[n] = s.lastRd[n]) := by
  by_cases hp : Passed i.cond s
  · rw [exec_of_reads_passed hi hp] at h
    obtain ⟨r, hd, -, rfl⟩ := readEn_next.mp h
    constructor
    · intro q hq
      have hrq : r ≠ q := fun e => hq (e ▸ hd)
      simp [Fin.val_ne_of_ne hrq]
    · intro n hn
      simp [Fin.val_ne_of_ne hn]
  · rw [exec_of_failed hp] at h
    cases h
    exact ⟨fun _ _ => rfl, fun _ _ => rfl⟩

/-- Settles O32: each of the four effects keeps what is not its own. -/
theorem masksAndOverrideAreIndependent : Obligations.MasksAndOverrideAreIndependent := by
  unfold Obligations.MasksAndOverrideAreIndependent
  intro i s t h
  exact ⟨fun k hk => exec_keeps_mask h hk, exec_keeps_cso h⟩

/-- Settles O33, field by field; a register and a LASTRD entry by whether the instruction is a read. -/
theorem accessesHaveNoOtherSideEffects : Obligations.AccessesHaveNoOtherSideEffects := by
  unfold Obligations.AccessesHaveNoOtherSideEffects
  intro i s t h
  refine ⟨exec_keeps_inputs h, exec_keeps_params h, exec_keeps_env h, exec_advances_pc h,
    fun a => by rw [exec_keeps_mem h], ?_⟩
  cases hi : i.reads? with
  | none =>
    obtain ⟨hx, hl, -⟩ := exec_of_no_read h hi
    exact ⟨fun q _ => by rw [hx], fun n _ => by rw [hl]⟩
  | some reg =>
    obtain ⟨hx, hl⟩ := exec_of_read h hi
    exact ⟨fun q hq => hx q (hq.resolve_left (by simp)), fun n hn => hl n (hn reg rfl)⟩

/-- With neither permission an instruction completes only where its condition has failed. -/
theorem exec_of_denied {i : Instr} {s t : State} (hpriv : s.inputs.priv = false) (huser : s.inputs.userEn = false)
    (h : exec i s = .next t) : t = s.advance := by
  have hno : enAccessOk s ≠ true := by simp [enAccessOk, hpriv, huser]
  rcases exec_next_cases h with ⟨-, rfl⟩ | ⟨-, _, _, -, -, hok, -⟩ | ⟨-, _, _, -, -, hok, -⟩ |
    ⟨-, -, _, _, -, hp, -⟩
  · rfl
  · exact absurd hok hno
  · exact absurd hok hno
  · rw [hpriv] at hp
    cases hp

/-- Settles O31: the write of the override takes Privileged mode, every other effect one of the two permissions. -/
theorem unprivilegedCodeReachesOnlyWhatIsPermitted : Obligations.UnprivilegedCodeReachesOnlyWhatIsPermitted := by
  unfold Obligations.UnprivilegedCodeReachesOnlyWhatIsPermitted
  intro i s t hpriv h
  constructor
  · rcases exec_cso_cases h with hsame | ⟨-, hp, -⟩
    · exact hsame
    · rw [hpriv] at hp
      cases hp
  · intro huser
    rw [exec_of_denied hpriv huser h]
    exact ⟨rfl, rfl⟩

end Sys2Proof.Machine
end

section
/-! PROOFS, noninterference: no access sees the override (10_state.md R39, R47), the overflow inputs (R44,
40_enable_set_clear.md R96) or the routing, and a step sees of the routing the reset wire alone (60_exceptions.md
R118). -/

namespace Sys2Proof.Machine

open Sys2Proof.Claims

/-! ## The override -/

/-- The state with no override in effect. -/
def State.forgetCso (s : State) : State := { s with cso := none }

theorem forgetCso_writeEffect (reg : EnReg) (v : Word) (s : State) :
    writeEffect reg v s.forgetCso = (writeEffect reg v s).forgetCso := by
  cases reg <;> rfl

theorem forgetCso_whenPassed (c : Cond) (s : State) {a b : Answer}
    (h : mapNext State.forgetCso b = mapNext State.forgetCso a) :
    mapNext State.forgetCso (whenPassed c s.forgetCso b) = mapNext State.forgetCso (whenPassed c s a) := by
  have hc : condPassed c s.forgetCso = condPassed c s := rfl
  cases hp : condPassed c s with
  | true => rw [whenPassed_of_passed b (hc.trans hp), whenPassed_of_passed a hp, h]
  | false =>
    rw [whenPassed_of_failed b (hc.trans hp), whenPassed_of_failed a hp]
    rfl

theorem forgetCso_readEn (reg : EnReg) (d : Reg) (s : State) :
    mapNext State.forgetCso (readEn reg d s.forgetCso) = mapNext State.forgetCso (readEn reg d s) := by
  cases h : readEn reg d s with
  | next t =>
    obtain ⟨r, hd, hok, rfl⟩ := readEn_next.mp h
    have h' : readEn reg d s.forgetCso = .next (readEffect reg r s.forgetCso) := readEn_next.mpr ⟨r, hd, hok, rfl⟩
    rw [h']
    rfl
  | fault q =>
    have hq := readEn_fault.mp h
    rw [show readEn reg d s.forgetCso = .fault q from readEn_fault.mpr hq]
  | refused q =>
    have hq := readEn_refused.mp h
    rw [show readEn reg d s.forgetCso = .refused q from readEn_refused.mpr hq]

theorem forgetCso_writeEn (reg : EnReg) (d : Reg) (s : State) :
    mapNext State.forgetCso (writeEn reg d s.forgetCso) = mapNext State.forgetCso (writeEn reg d s) := by
  cases h : writeEn reg d s with
  | next t =>
    obtain ⟨r, hd, hok, hadm, rfl⟩ := writeEn_next.mp h
    have h' : writeEn reg d s.forgetCso = .next (writeEffect reg (s.getX r) s.forgetCso) :=
      writeEn_next.mpr ⟨r, hd, hok, hadm, rfl⟩
    rw [h', forgetCso_writeEffect]
    rfl
  | fault q =>
    have hq := writeEn_fault.mp h
    rw [show writeEn reg d s.forgetCso = .fault q from writeEn_fault.mpr hq]
  | refused q =>
    have hq := writeEn_refused.mp h
    rw [show writeEn reg d s.forgetCso = .refused q from writeEn_refused.mpr hq]

/-- The write of the override consults it least of all: whatever it was, it is replaced. -/
theorem forgetCso_writeCso (d : Reg) (s : State) :
    mapNext State.forgetCso (writeCso d s.forgetCso) = mapNext State.forgetCso (writeCso d s) := by
  cases h : writeCso d s with
  | next t =>
    obtain ⟨r, o, hd, hok, hval, rfl⟩ := writeCso_next.mp h
    have h' : writeCso d s.forgetCso = .next (s.forgetCso.setCso o).advance :=
      writeCso_next.mpr ⟨r, o, hd, hok, hval, rfl⟩
    rw [h']
    rfl
  | fault q =>
    have hq := writeCso_fault.mp h
    rw [show writeCso d s.forgetCso = .fault q from writeCso_fault.mpr hq]
  | refused q =>
    have hq := writeCso_refused.mp h
    rw [show writeCso d s.forgetCso = .refused q from writeCso_refused.mpr hq]

theorem forgetCso_exec (i : Instr) (s : State) :
    mapNext State.forgetCso (exec i s.forgetCso) = mapNext State.forgetCso (exec i s) := by
  rcases instr_cases i with ⟨reg, hi⟩ | ⟨reg, hi⟩ | ⟨c, d, rfl⟩ | ⟨c, d, rfl⟩
  · rw [exec_of_reads _ hi, exec_of_reads _ hi]
    exact forgetCso_whenPassed _ s (forgetCso_readEn reg i.rd s)
  · rw [exec_of_writes _ hi, exec_of_writes _ hi]
    exact forgetCso_whenPassed _ s (forgetCso_writeEn reg i.rd s)
  · exact forgetCso_whenPassed c s (forgetCso_writeCso d s)
  · exact forgetCso_whenPassed c s rfl

/-- Settles O34: both answers are, but for the override, that of the state without one. -/
theorem overrideCannotBeReadBack : Obligations.OverrideCannotBeReadBack := by
  unfold Obligations.OverrideCannotBeReadBack
  intro i s a b
  have ha := forgetCso_exec i { s with cso := a }
  have hb := forgetCso_exec i { s with cso := b }
  exact ha.symm.trans hb

/-! ## The overflow inputs, memory and the routing -/

/-- The state with other bytes in memory, other overflow inputs and another routing, each made from its own. -/
def State.withOutside (m : Memory → Memory) (o : Overflow → Overflow) (ρ : Routing → Routing) (s : State) : State :=
  { s with
    cpu := { s.cpu with mem := m s.cpu.mem }
    inputs := { s.inputs with ovf := o s.inputs.ovf }
    params := { s.params with routing := ρ s.params.routing } }

theorem writeEffect_withOutside (m : Memory → Memory) (o : Overflow → Overflow) (ρ : Routing → Routing) (reg : EnReg)
    (v : Word) (s : State) : writeEffect reg v (s.withOutside m o ρ) = (writeEffect reg v s).withOutside m o ρ := by
  cases reg <;> rfl

theorem unseenByAccesses_withOutside (m : Memory → Memory) (o : Overflow → Overflow) (ρ : Routing → Routing) :
    UnseenByAccesses (State.withOutside m o ρ) where
  condPassed _ _ := rfl
  enAccessOk _ := rfl
  csoAccessOk _ := rfl
  getX _ _ := rfl
  lastRead _ _ := rfl
  sbzpPolicy _ := rfl
  csoValue _ _ := rfl
  advance _ := rfl
  readEffect _ _ _ := rfl
  writeEffect := writeEffect_withOutside m o ρ
  setCso _ _ := rfl

/-- Settles O35: no access consults or writes OVF. -/
theorem overflowInputsDoNotSteerAccesses : Obligations.OverflowInputsDoNotSteerAccesses := by
  unfold Obligations.OverflowInputsDoNotSteerAccesses
  intro i s o
  exact (unseenByAccesses_withOutside id (fun _ => o) id).exec_commutes i s

/-! ## The routing and the step -/

/-- The state with another routing. -/
def State.withRouting (ρ : Routing) (s : State) : State := { s with params := { s.params with routing := ρ } }

theorem exec_withRouting (ρ : Routing) (i : Instr) (s : State) :
    exec i (s.withRouting ρ) = mapNext (State.withRouting ρ) (exec i s) :=
  (unseenByAccesses_withOutside id id (fun _ => ρ)).exec_commutes i s

theorem landEvent_withRouting (ρ : Routing) (s : State) : (s.withRouting ρ).landEvent = s.landEvent.withRouting ρ := by
  cases henv : s.env with
  | nil => rw [landEvent_nil henv, landEvent_nil (s := s.withRouting ρ) henv]
  | cons e es =>
    rw [landEvent_cons henv, landEvent_cons (s := s.withRouting ρ) henv]
    cases e <;> rfl

theorem settle_withRouting {ρ : Routing} {s : State}
    (h : (s.withRouting ρ).resetAtProcessor = s.resetAtProcessor) :
    (s.withRouting ρ).settle = s.settle.withRouting ρ := by
  cases hr : s.resetAtProcessor with
  | true => rw [settle_of_requested hr, settle_of_requested (h.trans hr)]
  | false => rw [settle_of_not_requested hr, settle_of_not_requested (h.trans hr), landEvent_withRouting]

/-- A request not made, or the same reset wire: either way the processor's reset is requested as before. -/
theorem resetAtProcessor_withRouting {ρ : Routing} {s : State}
    (h : ρ.resetToProcessor = s.params.routing.resetToProcessor ∨ s.nValReset = .high) :
    (s.withRouting ρ).resetAtProcessor = s.resetAtProcessor := by
  have hnew : (s.withRouting ρ).resetAtProcessor = (ρ.resetToProcessor && s.rstReq) := rfl
  rw [hnew, State.resetAtProcessor]
  rcases h with h | h
  · rw [h]
  · have hno : s.rstReq = false := activeLow_eq_high_iff.mp h
    rw [hno, Bool.and_false, Bool.and_false]

/-- Two states that fetch the same in the same byte order do the same: both refuse by one name or both run one
instruction. -/
theorem step_of_same_fetch {s t : State} (hs : s.resetAtProcessor = false) (ht : t.resetAtProcessor = false)
    (hf : t.fetch = s.fetch) (ho : t.params.byteOrder = s.params.byteOrder) :
    (∃ q, step s = .refused q ∧ step t = .refused q) ∨
      (∃ i, step s = mapNext State.settle (exec i s) ∧ step t = mapNext State.settle (exec i t)) := by
  simp only [step, hs, ht, hf, ho, Bool.false_eq_true, if_false, afterInstruction_eq]
  cases s.fetch with
  | none => exact .inl ⟨.noInstruction, rfl, rfl⟩
  | some bytes =>
    dsimp only
    match decodeBytes s.params.byteOrder bytes with
    | .ok (i, _) => exact .inr ⟨i, rfl, rfl⟩
    | .error .notMine => exact .inl ⟨.notMine, rfl, rfl⟩
    | .error .truncated => exact .inl ⟨.noInstruction, rfl, rfl⟩

/-- Settles O36: the wired reset, the instruction and what lands after it commute with another routing wherever it
requests the processor's reset exactly as before. -/
theorem routingFeedsBackOnlyThroughTheResetWire : Obligations.RoutingFeedsBackOnlyThroughTheResetWire := by
  unfold Obligations.RoutingFeedsBackOnlyThroughTheResetWire
  intro s ρ h
  show step (s.withRouting ρ) = mapNext (State.withRouting ρ) (step s)
  have hsame := resetAtProcessor_withRouting (h.imp_right And.left)
  cases hr : s.resetAtProcessor with
  | true =>
    have hwire : ρ.resetToProcessor = s.wiredReset.params.routing.resetToProcessor := by
      refine h.resolve_right fun ⟨hhigh, _⟩ => ?_
      have hno : s.rstReq = false := activeLow_eq_high_iff.mp hhigh
      simp [State.resetAtProcessor, hno] at hr
    rw [step_of_wiredReset hr, step_of_wiredReset (hsame.trans hr)]
    exact congrArg _ (settle_withRouting (resetAtProcessor_withRouting (.inl hwire)))
  | false =>
    rcases step_of_same_fetch hr (hsame.trans hr) rfl rfl with ⟨q, hs, ht⟩ | ⟨i, hs, ht⟩
    · rw [hs, ht]
      rfl
    · rw [hs, ht, exec_withRouting]
      cases hi : exec i s with
      | next t =>
        have hnext : ρ.resetToProcessor = t.params.routing.resetToProcessor ∨ t.nValReset = .high :=
          h.imp (fun hw => exec_keeps_params hi ▸ hw) fun ⟨_, hhigh⟩ => hhigh i t hi
        exact congrArg _ (settle_withRouting (resetAtProcessor_withRouting hnext))
      | fault q => rfl
      | refused q => rfl

end Sys2Proof.Machine
end

section
/-! PROOFS, the request signals (60_exceptions.md section 1), each mask and its pair of registers (10_state.md R22 to
R25), and nVALRESET wired back to the processor's reset (40_enable_set_clear.md R83, 70_reset_and_hazards.md section
1). -/

namespace Sys2Proof.Machine

open Sys2Proof.Claims

/-! ## A signal is asserted on an enabled overflow -/

theorem requested_iff_meets {e : EnableMask} {o : Overflow} : requested e o = true ↔ Meets e o := by
  simp [requested, Meets, or_assoc]

theorem not_requested_iff_not_meets {e : EnableMask} {o : Overflow} : requested e o = false ↔ ¬ Meets e o := by
  rw [← requested_iff_meets, Bool.not_eq_true]

theorem activeLow_low_iff_meets {e : EnableMask} {o : Overflow} : activeLow (requested e o) = .low ↔ Meets e o :=
  activeLow_eq_low_iff.trans requested_iff_meets

theorem activeLow_high_iff_meets {e : EnableMask} {o : Overflow} : activeLow (requested e o) = .high ↔ ¬ Meets e o :=
  activeLow_eq_high_iff.trans not_requested_iff_not_meets

theorem activeHigh_high_iff_meets {e : EnableMask} {o : Overflow} : activeHigh (requested e o) = .high ↔ Meets e o :=
  activeHigh_eq_high_iff.trans requested_iff_meets

theorem activeHigh_low_iff_meets {e : EnableMask} {o : Overflow} : activeHigh (requested e o) = .low ↔ ¬ Meets e o :=
  activeHigh_eq_low_iff.trans not_requested_iff_not_meets

/-- Settles O38: each signal is its polarity of the request of its own mask. -/
theorem signalsAreAssertedExactlyOnEnabledOverflow : Obligations.SignalsAreAssertedExactlyOnEnabledOverflow := by
  unfold Obligations.SignalsAreAssertedExactlyOnEnabledOverflow
  intro s
  exact ⟨activeLow_low_iff_meets, activeLow_high_iff_meets, activeLow_low_iff_meets, activeLow_high_iff_meets,
    activeLow_low_iff_meets, activeLow_high_iff_meets, activeHigh_high_iff_meets, activeHigh_low_iff_meets⟩

/-- The four kinds at once: an enabled overflow asserts the kind's signal. -/
theorem signals_of_meets (s : State) :
    (Meets s.irqen s.inputs.ovf → s.nValIrq = .low) ∧ (Meets s.fiqen s.inputs.ovf → s.nValFiq = .low) ∧
    (Meets s.rsten s.inputs.ovf → s.nValReset = .low) ∧ (Meets s.dbgen s.inputs.ovf → s.valEdbgrq = .high) :=
  ⟨activeLow_low_iff_meets.mpr, activeLow_low_iff_meets.mpr, activeLow_low_iff_meets.mpr,
    activeHigh_high_iff_meets.mpr⟩

/-- With every counter overflowing, all enables or none give a signal asserted LOW either level. -/
theorem exists_mask_activeLow (l : Level) : ∃ e : EnableMask, activeLow (requested e ⟨true, true, true, true⟩) = l :=
  match l with
  | .low => ⟨allOn, rfl⟩
  | .high => ⟨allOff, rfl⟩

theorem exists_mask_activeHigh (l : Level) : ∃ e : EnableMask, activeHigh (requested e ⟨true, true, true, true⟩) = l :=
  match l with
  | .high => ⟨allOn, rfl⟩
  | .low => ⟨allOff, rfl⟩

/-- Settles O42: with every counter overflowing each level is the choice of its own mask. -/
theorem anySubsetOfSignalsMayBeAsserted : Obligations.AnySubsetOfSignalsMayBeAsserted := by
  unfold Obligations.AnySubsetOfSignalsMayBeAsserted
  intro s a b c d
  obtain ⟨e, he⟩ := exists_mask_activeLow a
  obtain ⟨f, hf⟩ := exists_mask_activeLow b
  obtain ⟨g, hg⟩ := exists_mask_activeLow c
  obtain ⟨h, hh⟩ := exists_mask_activeHigh d
  exact ⟨e, f, g, h, ⟨true, true, true, true⟩, _, rfl, he, hf, hg, hh⟩

theorem routed_low_iff {wire request : Bool} : (wire && request) = true ↔ wire = true ∧ activeLow request = .low := by
  rw [activeLow_eq_low_iff, Bool.and_eq_true]

theorem routed_high_iff {wire request : Bool} :
    (wire && request) = true ↔ wire = true ∧ activeHigh request = .high := by
  rw [activeHigh_eq_high_iff, Bool.and_eq_true]

theorem resetAtProcessor_iff {s : State} :
    s.resetAtProcessor = true ↔ s.params.routing.resetToProcessor = true ∧ s.nValReset = .low :=
  routed_low_iff

/-- Settles O43: what reaches a party is its wire and the request. -/
theorem requestsReachOnlyTheirRoutedParties : Obligations.RequestsReachOnlyTheirRoutedParties := by
  unfold Obligations.RequestsReachOnlyTheirRoutedParties
  intro s
  exact ⟨routed_low_iff, routed_low_iff, routed_low_iff, routed_high_iff, routed_low_iff, routed_low_iff,
    resetAtProcessor_iff, routed_high_iff, rfl⟩

/-! ## Writes and the signals -/

/-- Enabling a counter that overflows makes the kind's request. -/
theorem meets_afterSet {e : EnableMask} {v : Word} {o : Overflow}
    (h : (v.getLsbD 31 && o.c) = true ∨ (v.getLsbD 2 && o.p2) = true ∨ (v.getLsbD 1 && o.p1) = true ∨
      (v.getLsbD 0 && o.p0) = true) : Meets (afterSet e v) o := by
  simp only [Bool.and_eq_true] at h
  unfold Meets afterSet
  rcases h with ⟨hv, ho⟩ | ⟨hv, ho⟩ | ⟨hv, ho⟩ | ⟨hv, ho⟩
  · exact .inl ⟨by simp [hv], ho⟩
  · exact .inr (.inl ⟨by simp [hv], ho⟩)
  · exact .inr (.inr (.inl ⟨by simp [hv], ho⟩))
  · exact .inr (.inr (.inr ⟨by simp [hv], ho⟩))

theorem not_meets_allOff (o : Overflow) : ¬ Meets allOff o := by
  simp [Meets, allOff]

/-- The value `0x80000007` has no reserved bit set, so every enable register admits it. -/
theorem admitted_all (s : State) (n : Fin 8) : Admitted s n 0x80000007#32 :=
  .inl (by decide)

/-- Settles O40: the write leaves the mask `afterSet`, which meets the overflow; the signal is the kind's. -/
theorem enablingDuringOverflowAssertsAtOnce : Obligations.EnablingDuringOverflowAssertsAtOnce := by
  unfold Obligations.EnablingDuringOverflowAssertsAtOnce
  intro i reg r s t hi hset hd hp h hov
  obtain rfl := eq_writeEffect hi hd hp h
  have hmeets : Meets ((writeEffect reg s.cpu.x[r] s).mask (regKind reg)) s.inputs.ovf := by
    rw [writeEffect_of_set hset, advance_mask, mask_setMask_same]
    exact meets_afterSet hov
  rw [← writeEffect_inputs reg s.cpu.x[r] s] at hmeets
  obtain ⟨hirq, hfiq, hrst, hdbg⟩ := signals_of_meets (writeEffect reg s.cpu.x[r] s)
  generalize regKind reg = k at hmeets ⊢
  cases k with
  | irq => exact hirq hmeets
  | fiq => exact hfiq hmeets
  | rst => exact hrst hmeets
  | dbg => exact hdbg hmeets

/-- Settles O41: the empty mask meets no overflow. -/
theorem clearingAllEnablesDeassertsForEveryOverflow : Obligations.ClearingAllEnablesDeassertsForEveryOverflow := by
  unfold Obligations.ClearingAllEnablesDeassertsForEveryOverflow
  intro i reg r s hi hclr hd hp ok hv
  have hexec := exec_clrWrite hi hclr hd hp ok (hv ▸ admitted_all s _)
  rw [hv, afterClr_all] at hexec
  refine ⟨_, hexec, by simp, fun o => ?_⟩
  cases regKind reg with
  | irq => exact activeLow_high_iff_meets.mpr (not_meets_allOff o)
  | fiq => exact activeLow_high_iff_meets.mpr (not_meets_allOff o)
  | rst => exact activeLow_high_iff_meets.mpr (not_meets_allOff o)
  | dbg => exact activeHigh_low_iff_meets.mpr (not_meets_allOff o)

/-! ## Each mask and its pair of registers -/

/-- The read and the write of the enable register numbered `o` are at its coordinate. -/
theorem atCoordinate_enable (o : BitVec 3) (l : Bool) :
    AtCoordinate (fun c d => if l then .readOf (.ofOpc2 o) c d else .writeOf (.ofOpc2 o) c d) o := by
  intro c d
  obtain ⟨hrow, -⟩ := fixedBits (if l then .readOf (.ofOpc2 o) c d else .writeOf (.ofOpc2 o) c d)
  obtain ⟨hcrn, hcrm, hopc2, -⟩ := fields_of_fixedBits hrow
  obtain ⟨hcrn', hcrm', hopc2', -⟩ := fields_of_rowMatch_enable o l c d rfl
  exact ⟨hcrn.trans hcrn', hcrm.trans hcrm', hopc2.trans hopc2'⟩

section
variable {reg : EnReg} {r : Fin 15} {s : State}

/-- An unconditional, permitted read of a register leaves its mask in Rd. -/
theorem exec_readOf_carries (ok : Permitted s) :
    ∃ t, exec (.readOf reg 14#4 (regNo r)) s = .next t ∧ Carries t.cpu.x[r] (s.mask (regKind reg)) := by
  refine ⟨_, exec_read (reg := reg) ?_ (readOf_rd reg _ _) (.inl (readOf_cond reg _ _)) ok, carries_iff.mpr ?_⟩
  · cases reg <;> rfl
  · simp

/-- An unconditional, permitted write of `0x80000007` to a Set register leaves all enables on. -/
theorem exec_writeOf_set_all (hset : regPort reg = .set) (ok : Permitted s) (hv : s.cpu.x[r] = 0x80000007#32) :
    ∃ t, exec (.writeOf reg 14#4 (regNo r)) s = .next t ∧ t.mask (regKind reg) = allOn := by
  refine ⟨_, exec_setWrite (writeOf_writes? reg _ _) hset (writeOf_rd reg _ _) (.inl (writeOf_cond reg _ _)) ok
    (hv ▸ admitted_all s _), ?_⟩
  simp [hv]

/-- The same write to a Clear register leaves all enables off. -/
theorem exec_writeOf_clr_all (hclr : regPort reg = .clr) (ok : Permitted s) (hv : s.cpu.x[r] = 0x80000007#32) :
    ∃ t, exec (.writeOf reg 14#4 (regNo r)) s = .next t ∧ t.mask (regKind reg) = allOff := by
  refine ⟨_, exec_clrWrite (writeOf_writes? reg _ _) hclr (writeOf_rd reg _ _) (.inl (writeOf_cond reg _ _)) ok
    (hv ▸ admitted_all s _), ?_⟩
  simp [hv]

end

/-- A Set and a Clear register of one kind, at their coordinates, reach the kind's mask. -/
theorem reachedThrough_pair {k : Kind} (m n : BitVec 3) (hset : regPort (.ofOpc2 m) = .set)
    (hclr : regPort (.ofOpc2 n) = .clr) (hm : regKind (.ofOpc2 m) = k) (hn : regKind (.ofOpc2 n) = k) :
    ReachedThrough (fun s => s.mask k) m (.readOf (.ofOpc2 m)) (.writeOf (.ofOpc2 m)) n (.readOf (.ofOpc2 n))
      (.writeOf (.ofOpc2 n)) := by
  refine ⟨atCoordinate_enable m true, atCoordinate_enable m false, atCoordinate_enable n true,
    atCoordinate_enable n false, fun r s hpriv => ?_⟩
  have ok : Permitted s := .inl hpriv
  refine ⟨?_, ?_, fun hv => ⟨?_, ?_⟩⟩
  · exact hm ▸ exec_readOf_carries ok
  · exact hn ▸ exec_readOf_carries ok
  · exact hm ▸ exec_writeOf_set_all hset ok hv
  · exact hn ▸ exec_writeOf_clr_all hclr ok hv

/-- Settles O39: the four pairs are opc2 0 and 4, 1 and 5, 2 and 6, 3 and 7. -/
theorem eachMaskAssertsItsSignalAndIsReachedThroughItsPair :
    Obligations.EachMaskAssertsItsSignalAndIsReachedThroughItsPair := by
  unfold Obligations.EachMaskAssertsItsSignalAndIsReachedThroughItsPair
  exact ⟨signals_of_meets, reachedThrough_pair (k := .irq) 0#3 4#3 rfl rfl rfl rfl,
    reachedThrough_pair (k := .fiq) 1#3 5#3 rfl rfl rfl rfl, reachedThrough_pair (k := .rst) 2#3 6#3 rfl rfl rfl rfl,
    reachedThrough_pair (k := .dbg) 3#3 7#3 rfl rfl rfl rfl⟩

theorem regKind_eq_iff {reg : EnReg} {k : Kind} :
    regKind reg = k ↔ (regNumber reg = (pairNumbers k).1 ∨ regNumber reg = (pairNumbers k).2) := by
  cases k <;> cases reg <;> decide

/-- A state in which every mask is `e` and every general register holds all function bits. -/
def State.uniform (e : EnableMask) : State :=
  { State.reset with
    irqen := e, fiqen := e, rsten := e, dbgen := e
    cpu := { Cpu.reset with x := Vector.replicate 15 0x80000007#32 } }

theorem uniform_mask (e : EnableMask) (k : Kind) : (State.uniform e).mask k = e := by
  cases k <;> rfl

/-- Through either register of a pair some write changes the mask: all bits set over none, or cleared over all. -/
theorem exists_write_changing_mask (reg : EnReg) : ∃ (i : Instr) (s t : State), i.writes? = some reg ∧
    exec i s = .next t ∧ t.mask (regKind reg) ≠ s.mask (regKind reg) := by
  cases hport : regPort reg with
  | set =>
    obtain ⟨t, hexec, hmask⟩ := exec_writeOf_set_all (r := 0) (s := State.uniform allOff) hport (.inl rfl) rfl
    refine ⟨_, _, t, writeOf_writes? reg _ _, hexec, ?_⟩
    rw [hmask, uniform_mask]
    decide
  | clr =>
    obtain ⟨t, hexec, hmask⟩ := exec_writeOf_clr_all (r := 0) (s := State.uniform allOn) hport (.inl rfl) rfl
    refine ⟨_, _, t, writeOf_writes? reg _ _, hexec, ?_⟩
    rw [hmask, uniform_mask]
    decide

/-- Settles O46: a write changes no mask but its kind's, and its kind's in some state; a kind is a pair of numbers. -/
theorem eachMaskIsReachedThroughExactlyItsTwoRegisters :
    Obligations.EachMaskIsReachedThroughExactlyItsTwoRegisters := by
  unfold Obligations.EachMaskIsReachedThroughExactlyItsTwoRegisters
  refine ⟨signals_of_meets, fun k reg => ?_⟩
  rw [← regKind_eq_iff]
  constructor
  · rintro ⟨i, s, t, hi, h, hchanged⟩
    by_contra hk
    refine hchanged (exec_keeps_mask h fun q hq => ?_)
    rw [hi] at hq
    cases hq
    exact hk
  · rintro rfl
    exact exists_write_changing_mask reg

/-! ## nVALRESET wired back -/

/-- Settles O44: the step is `State.wiredReset`, field by field. -/
theorem wiredResetRequestResetsTheBlock : Obligations.WiredResetRequestResetsTheBlock := by
  unfold Obligations.WiredResetRequestResetsTheBlock
  intro s hwire hlow
  refine ⟨s.wiredReset, step_of_wiredReset (resetAtProcessor_iff.mpr ⟨hwire, hlow⟩), rfl, rfl, rfl, rfl, rfl,
    fun n => ?_, rfl, rfl, fun a => rfl⟩
  simp

/-- Settles O45: the write leaves the reset requested, so nothing lands after it and the next step is the reset. -/
theorem enablingAWiredResetRequestMakesTheNextEventAReset :
    Obligations.EnablingAWiredResetRequestMakesTheNextEventAReset := by
  unfold Obligations.EnablingAWiredResetRequestMakesTheNextEventAReset
  intro c r s hr hwire hp ok adm hc hmem hov
  have hexec := exec_setWrite (i := .mcrRstEnset c (regNo r)) (reg := .rstEnset) rfl rfl rfl hp ok adm
  generalize ht : (s.setMask (regKind .rstEnset) (afterSet (s.mask (regKind .rstEnset)) s.cpu.x[r])).advance = t
    at hexec
  have hrst : t.rsten = afterSet s.rsten s.cpu.x[r] := by rw [← ht]; rfl
  have hlow : t.nValReset = .low := by
    refine activeLow_low_iff_meets.mpr ?_
    rw [hrst, exec_keeps_inputs hexec]
    exact meets_afterSet hov
  have hreq : t.resetAtProcessor = true := resetAtProcessor_iff.mpr ⟨exec_keeps_params hexec ▸ hwire, hlow⟩
  obtain ⟨-, -, hdraws⟩ := exec_of_no_read hexec rfl
  have hstep : step s = .next t := by
    rw [step_of_encodeBytes (i := .mcrRstEnset c (regNo r)) hr (wellFormed_iff.mpr hc) hmem, hexec]
    exact congrArg _ (settle_of_requested hreq)
  exact ⟨t, t.wiredReset, hstep, hrst, hlow, exec_keeps_env hexec, step_of_wiredReset hreq,
    hdraws ▸ wiredReset_rsten t, hdraws ▸ wiredReset_irqen t, hdraws ▸ wiredReset_fiqen t,
    hdraws ▸ wiredReset_dbgen t, rfl⟩

/-! ## The override and the masks apart -/

/-- The signals are functions of the masks and the inputs. -/
theorem signals_of_same_masks {s t : State} (hmask : ∀ k, t.mask k = s.mask k) (hin : t.inputs = s.inputs) :
    t.nValIrq = s.nValIrq ∧ t.nValFiq = s.nValFiq ∧ t.nValReset = s.nValReset ∧ t.valEdbgrq = s.valEdbgrq := by
  have hovf : t.inputs.ovf = s.inputs.ovf := by rw [hin]
  exact ⟨congrArg₂ (fun e o => activeLow (requested e o)) (hmask .irq) hovf,
    congrArg₂ (fun e o => activeLow (requested e o)) (hmask .fiq) hovf,
    congrArg₂ (fun e o => activeLow (requested e o)) (hmask .rst) hovf,
    congrArg₂ (fun e o => activeHigh (requested e o)) (hmask .dbg) hovf⟩

/-- Settles O47: the write is no read and no write of a mask, memory is unseen, and the override has one write. -/
theorem overrideWriteIsIndependent : Obligations.OverrideWriteIsIndependent := by
  unfold Obligations.OverrideWriteIsIndependent
  refine ⟨fun c d s t h => ?_, fun c d s m => ?_, fun i s t hi h => ?_⟩
  · have hmask : ∀ k, t.mask k = s.mask k := fun k => exec_keeps_mask h fun _ hw => nomatch hw
    have hin := exec_keeps_inputs h
    obtain ⟨hirq, hfiq, hrst, hdbg⟩ := signals_of_same_masks hmask hin
    obtain ⟨hx, -, -⟩ := exec_of_no_read h rfl
    exact ⟨hmask .irq, hmask .fiq, hmask .rst, hmask .dbg, by rw [hin], hirq, hfiq, hrst, hdbg, by rw [hin], hx,
      exec_advances_pc h, fun a => by rw [exec_keeps_mem h]⟩
  · exact (unseenByAccesses_withOutside (fun _ => m) id id).exec_commutes (.mcrCsor c d) s
  · exact exec_keeps_cso h (isCsoWrite_of_isEnableAccess hi)

/-- An instruction that writes an enable register reads none. -/
theorem reads?_of_writes {i : Instr} {reg : EnReg} (h : i.writes? = some reg) : i.reads? = none := by
  rw [eq_writeOf h]
  cases reg <;> rfl

/-- Settles O49: a write keeps the masks of other kinds, and a request is a function of its own kind's mask and OVF. -/
theorem theFourMasksAreSeparate : Obligations.TheFourMasksAreSeparate := by
  unfold Obligations.TheFourMasksAreSeparate
  refine ⟨fun i reg s t hi h => ?_, fun i s t hi h => ?_, ?_⟩
  · obtain ⟨hx, hl, hdraws⟩ := exec_of_no_read h (reads?_of_writes hi)
    have hcso := exec_keeps_cso h (isCsoWrite_of_isEnableAccess (isEnableAccess_of_writes hi))
    refine ⟨fun k hk => exec_keeps_mask h fun q hq => ?_, hcso, hl, hx, exec_keeps_mem h, exec_keeps_inputs h,
      exec_keeps_params h, hdraws, exec_keeps_env h⟩
    rw [hi] at hq
    cases hq
    exact hk.symm
  · exact exec_keeps_cso h (isCsoWrite_of_isEnableAccess hi)
  · rintro s e f g h o t rfl
    exact ⟨requested_iff_meets.mpr, requested_iff_meets.mpr, requested_iff_meets.mpr, requested_iff_meets.mpr⟩

end Sys2Proof.Machine
end
